-- ==== Sys2Proof/Word.lean ====
section
/-! DEFINITION. The word types of the core (00_scope.md R5, R9; 30_encoding.md R61). -/

namespace Sys2Proof

/-- `u64` (R9): a lane, the total length, a seed, a digest, a payload, a response word. -/
abbrev Word := BitVec 64

/-- `byte` (R9): one element of the stream and of the staging buffer. -/
abbrev Byte := BitVec 8

/-- The 80-bit command word (R61). -/
abbrev CmdWord := BitVec 80

end Sys2Proof
end

