-- ==== Sys2Proof/Config.lean ====
section
/-! DEFINITION. The parameters of 00_scope.md R7 at the values this hardware takes.
They are fixed for a run and are not state (10_state.md R35).
N_INST is the index of Machine/Design.lean's `Design`, and HOST_MAP is read by no rule.
There is no free value: the spec leaves no result of any command open. -/

namespace Sys2Proof.Config

/-- BEAT_BYTES (R7, D4): the most data bytes one INGEST carries, fixed by the encoding. -/
def beatBytes : Nat := 8

/-- FINAL_REINIT (R7, D8): this hardware's value.
A constant here, as R7 gives it; `finalWith` is written for both values (log 7). -/
def finalReinit : Bool := false

/-- RSP_DEPTH (R7, D14): this hardware's value; any value of at least 1 is conforming.
A constant here, as R7 gives it; `stepAt` is written for every depth (log 7). -/
def rspDepth : Nat := 1

end Sys2Proof.Config
end

