-- ==== Sys2Proof/Machine/Primitives.lean ====
section
/-! DEFINITION. The constants and arithmetic primitives of 40_primitives.md.
The commands use nothing else. `+`, `-`, `*` on `Word` wrap modulo 2^64 (R101, R102),
`^^^` is bitwise exclusive or (R103), `>>>` shifts zeros in (R104), `setWidth 64` is `zext_64` (R108). -/

namespace Sys2Proof.Machine

/-- The canonical xxHash64 primes, at the values R100 gives.
UNVERIFIED: the spec marks them as general knowledge itself (N3, K1; log 8). -/
def P1 : Word := 0x9E3779B185EBCA87
/-- R100 (log 8). -/
def P2 : Word := 0xC2B2AE3D27D4EB4F
/-- R100 (log 8). -/
def P3 : Word := 0x165667B19E3779F9
/-- R100 (log 8). -/
def P4 : Word := 0x85EBCA77C2B2AE63
/-- R100 (log 8). -/
def P5 : Word := 0x27D4EB2F165667C5

/-- Rotate left by `r`, `1 <= r <= 63` (R105). -/
def rotl (x : Word) (r : Nat) : Word := (x <<< r) ||| (x >>> (64 - r))

/-- Little-endian assembly: the first byte is the least significant.
The byte order of the core is decided here and nowhere else (20_memory.md R44). -/
def leBits (w : Nat) (bytes : List Byte) : BitVec w :=
  bytes.foldr (fun b acc => b.setWidth w ||| (acc <<< 8)) 0

/-- `LE64(s, o)` (R106), for `o + 8 <= len(s)`. -/
def LE64 (s : List Byte) (o : Nat) : Word := leBits 64 ((s.drop o).take 8)

/-- `LE32(s, o)` (R107), for `o + 4 <= len(s)`. -/
def LE32 (s : List Byte) (o : Nat) : BitVec 32 := leBits 32 ((s.drop o).take 4)

/-- The shared mixing operator (R109): used by the block mixer, the merge round and the tail 8-byte step. -/
def mix (acc input : Word) : Word := rotl (acc + input * P2) 31 * P1

/-- The merge round (R110). -/
def mergeRound (acc v : Word) : Word := (acc ^^^ mix 0 v) * P1 + P4

/-- The avalanche (R111). -/
def avalanche (acc : Word) : Word :=
  let acc := acc ^^^ (acc >>> 33)
  let acc := acc * P2
  let acc := acc ^^^ (acc >>> 29)
  let acc := acc * P3
  acc ^^^ (acc >>> 32)

end Sys2Proof.Machine
end

