-- ==== Sys2Proof/Syntax.lean ====
section
/-! DEFINITION. The commands of the core, one constructor per row of spec/opcode_table.json
(30_encoding.md R64), with the operands R62 gives them, and the causes of an illegal word. -/

namespace Sys2Proof

/-- The six registers RDREG can name (10_state.md R29). Selectors 6 to 15 are reserved: they are no `RegSel`. -/
inductive RegSel where
  | status
  | total
  | lane0
  | lane1
  | lane2
  | lane3
  deriving DecidableEq, Repr

/-- A legal command (30_encoding.md R65). The bits a command ignores (R67) are no part of it. -/
inductive Instr where
  /-- NOP (44_control.md R180). -/
  | nop
  /-- INIT with its seed, the whole payload (41_init.md R120). -/
  | init (seed : Word)
  /-- INGEST with its beat, the first LEN payload bytes, byte 0 first (42_ingest.md R130; 20_memory.md R42). -/
  | ingest (beat : List Byte)
  /-- FINAL (43_finalize.md R150). -/
  | final
  /-- RDREG with the register its SEL names (44_control.md R181). -/
  | rdreg (sel : RegSel)
  deriving DecidableEq, Repr

/-- Why a word is no command: the causes 1 to 5 of 60_exceptions.md R201, in its order. -/
inductive IllegalCause where
  /-- RESERVED_OP: `OP >= 0x5`. -/
  | reservedOp
  /-- RESERVED_FIELD: `RSV != 0`. -/
  | reservedField
  /-- NONZERO_A: `A != 0` in a NOP, INIT or FINAL. -/
  | nonzeroA
  /-- BAD_LEN: an INGEST with `A > 8`. -/
  | badLen
  /-- BAD_SEL: a RDREG with `A > 5`. -/
  | badSel
  deriving DecidableEq, Repr

/-- The decoder's verdict on a word (30_encoding.md R65): a command, or `Illegal(c)`. -/
inductive Decoded where
  | cmd (i : Instr)
  | illegal (c : IllegalCause)
  deriving DecidableEq, Repr

end Sys2Proof
end

