-- ==== Sys2Proof/Decode.lean ====
section
/-! DEFINITION. The decoder of 30_encoding.md R65, total on every 80-bit word, and the encoder of R61 and R71. -/

namespace Sys2Proof

open Sys2Proof.Machine (leBits)

/-- OP, bits [3:0] (R61). -/
def fieldOp (w : CmdWord) : BitVec 4 := w.extractLsb' 0 4
/-- A, bits [7:4] (R61). -/
def fieldA (w : CmdWord) : BitVec 4 := w.extractLsb' 4 4
/-- RSV, bits [15:8] (R61). -/
def fieldRsv (w : CmdWord) : BitVec 8 := w.extractLsb' 8 8
/-- PAYLOAD, bits [79:16] (R61). -/
def fieldPayload (w : CmdWord) : Word := w.extractLsb' 16 64

/-- The beat `[PAYLOAD[8k+7:8k] for k = 0 .. LEN-1]` (R62; 20_memory.md R42). -/
def beatOf (payload : Word) (len : Nat) : List Byte :=
  (List.range len).map fun k => payload.extractLsb' (8 * k) 8

/-- The register a selector names, none for the reserved 6 to 15 (10_state.md R29). -/
def RegSel.ofCode (a : BitVec 4) : Option RegSel :=
  match a.toNat with
  | 0 => some .status
  | 1 => some .total
  | 2 => some .lane0
  | 3 => some .lane1
  | 4 => some .lane2
  | 5 => some .lane3
  | _ => none

/-- SEL of a register (10_state.md R29). -/
def RegSel.code : RegSel → BitVec 4
  | .status => 0
  | .total => 1
  | .lane0 => 2
  | .lane1 => 3
  | .lane2 => 4
  | .lane3 => 5

/-- The code ECAUSE records for a cause (60_exceptions.md R201). -/
def IllegalCause.code : IllegalCause → BitVec 3
  | .reservedOp => 1
  | .reservedField => 2
  | .nonzeroA => 3
  | .badLen => 4
  | .badSel => 5

/-- The decoder (R65): the checks in its order, the first that matches decides.
Bits a command ignores play no part (R62, R67; log 19). -/
def decode (w : CmdWord) : Decoded :=
  let op := (fieldOp w).toNat
  let a := fieldA w
  if 5 ≤ op then .illegal .reservedOp
  else if fieldRsv w ≠ 0 then .illegal .reservedField
  else if (op = 0 ∨ op = 1 ∨ op = 3) ∧ a ≠ 0 then .illegal .nonzeroA
  else if op = 2 ∧ Config.beatBytes < a.toNat then .illegal .badLen
  else if op = 0 then .cmd .nop
  else if op = 1 then .cmd (.init (fieldPayload w))
  else if op = 2 then .cmd (.ingest (beatOf (fieldPayload w) a.toNat))
  else if op = 3 then .cmd .final
  else match RegSel.ofCode a with
    | some r => .cmd (.rdreg r)
    | none => .illegal .badSel

/-- A command word from its four fields (R61). -/
def wordOf (payload : Word) (rsv : BitVec 8) (a op : BitVec 4) : CmdWord :=
  (payload.setWidth 80 <<< 16) ||| (rsv.setWidth 80 <<< 8) ||| (a.setWidth 80 <<< 4) ||| op.setWidth 80

/-- The canonical encoding (R71): ignored fields are 0. Of use for well-formed commands. -/
def encode (i : Instr) : CmdWord :=
  match i with
  | .nop => wordOf 0 0 0 0
  | .init seed => wordOf seed 0 0 1
  | .ingest beat => wordOf (leBits 64 beat) 0 (BitVec.ofNat 4 beat.length) 2
  | .final => wordOf 0 0 0 3
  | .rdreg sel => wordOf 0 0 sel.code 4

/-- The command the decoder reads from a word given by its number, bit 0 the least significant
(the numbering of spec/opcode_table.json is R61's own). A word is 80 bits; bits from `nbits` up are 0. -/
def decodeTableWord (nbits w : Nat) : Option Instr :=
  match decode (BitVec.ofNat 80 (w % 2 ^ nbits)) with
  | .cmd i => some i
  | .illegal _ => none

end Sys2Proof
end

