-- ==== Sys2Proof/Machine/State.lean ====
section
/-! DEFINITION. The state of one core instance (10_state.md R20 to R26), the host's side of its channels
(30_encoding.md R60), and the state after reset (R34). -/

namespace Sys2Proof.Machine

/-- Why a step could stop with a fault: never.
No datapath operation and no legal command raises an error (60_exceptions.md R200), an illegal command
is recorded and the core goes on (R202, R212), and a full response queue leaves the model stuck, not
faulted (70_reset_and_hazards.md R236). DEDUCED (log 9): safe. -/
inductive Fault where
  deriving DecidableEq, Repr

/-- Why a step could be refused. -/
inductive Refusal where
  /-- Raised by an arm of `exec` whose instruction has no meaning yet. Safe. No arm raises it now. -/
  | notModelled (mnemonic : String)
  deriving DecidableEq, Repr

/-- The four lane registers `lane[0]` to `lane[3]` (R20). -/
structure Lanes where
  lane0 : Word
  lane1 : Word
  lane2 : Word
  lane3 : Word
  deriving DecidableEq, Repr

/-- What the host does at the core's ports (30_encoding.md R60), one event at a time (log 1). -/
inductive HostEvent where
  /-- The host offers a command word and holds it until the core accepts it. -/
  | send (w : CmdWord)
  /-- The host raises `rsp_ready` once: it accepts the head response if there is one (log 3). -/
  | take
  /-- The host asserts `rst` (70_reset_and_hazards.md R230). -/
  | rst
  deriving DecidableEq, Repr

/-- The state. The first seven fields are the core's, all the spec gives it (R31, R34);
`inbox` and `rsp` are the model's own and stand for the host (log 1, log 4). -/
structure State where
  /-- `cnt`, the staged count, 5 bits (R22; log 17). -/
  cnt : BitVec 5
  /-- `tot`, the total length (R24). -/
  tot : Word
  /-- `stg[0..31]`, the staging buffer (R21). Only the bytes below `cnt` mean anything (log 6). -/
  stg : Vector Byte 32
  /-- `lane[0..3]` (R20). -/
  lanes : Lanes
  /-- `ERR` (R25). -/
  err : Bool
  /-- `ECAUSE` (R25). -/
  ecause : BitVec 3
  /-- `RQ`, the response queue, head first (R26). -/
  rq : List Word
  /-- The host events still to come, oldest first. The model's own (log 1). -/
  inbox : List HostEvent
  /-- The responses the host has accepted, oldest first: `rsp[k]` of 30_encoding.md R72. The model's own (log 4). -/
  rsp : List Word
  deriving DecidableEq, Repr

/-- The state after reset, the table of R34.
`stg` is unspecified there: zero is a DESIGN CHOICE (log 5), unsafe.
`inbox` and `rsp` are empty: DESIGN CHOICE (log 1, log 4). -/
def State.reset : State where
  cnt := 0
  tot := 0
  stg := Vector.replicate 32 0
  lanes :=
    { lane0 := 0x60EA27EEADC0B5D6
      lane1 := 0xC2B2AE3D27D4EB4F
      lane2 := 0x0000000000000000
      lane3 := 0x61C8864E7A143579 }
  err := false
  ecause := 0
  rq := []
  inbox := []
  rsp := []

end Sys2Proof.Machine
end

