-- ==== Sys2Proof/Machine/Flags.lean ====
section
/-! DEFINITION. The derived flag LONG and the status register (10_state.md R27, R28).
No arithmetic operation sets a flag (40_primitives.md R101, R102, R112). -/

namespace Sys2Proof.Machine

/-- The path flag `LONG = (tot >= 32)`, unsigned (R27; 43_finalize.md R151). -/
def State.long (s : State) : Bool := decide (32 ≤ s.tot.toNat)

/-- STATUS (R28): `zext(cnt) | LONG << 5 | ERR << 6 | ECAUSE << 8`, every other bit 0. -/
def State.status (s : State) : Word :=
  s.cnt.setWidth 64
    ||| ((BitVec.ofBool s.long).setWidth 64 <<< 5)
    ||| ((BitVec.ofBool s.err).setWidth 64 <<< 6)
    ||| (s.ecause.setWidth 64 <<< 8)

end Sys2Proof.Machine
end

