-- ==== Sys2Proof/Machine/Operands.lean ====
section
/-! DEFINITION. The register select space (10_state.md R29; 20_memory.md R41), the one operand a command
names. Every register is read-only. The operands carried in the word (seed, beat) are Decode.lean's (R62). -/

namespace Sys2Proof.Machine

/-- The content of the register a selector names (10_state.md R29; 44_control.md R181). -/
def readReg (s : State) : RegSel → Word
  | .status => s.status
  | .total => s.tot
  | .lane0 => s.lanes.lane0
  | .lane1 => s.lanes.lane1
  | .lane2 => s.lanes.lane2
  | .lane3 => s.lanes.lane3

end Sys2Proof.Machine
end

