-- ==== Sys2Proof/Machine/Ops.lean ====
section
/-! DEFINITION. The named operations on the state that the commands and the step are built from. -/

namespace Sys2Proof.Machine

/-! ### The lane registers -/

/-- `lane[i]` (00_scope.md R11). -/
def Lanes.get (l : Lanes) (i : Fin 4) : Word :=
  match i with
  | 0 => l.lane0
  | 1 => l.lane1
  | 2 => l.lane2
  | 3 => l.lane3

/-! ### The staging buffer -/

/-- `for k: stg[o + k] <- b[k]` (42_ingest.md R131). The core never writes at or above 32. -/
def writeStg (stg : Vector Byte 32) (o : Nat) : List Byte → Vector Byte 32
  | [] => stg
  | x :: xs => writeStg (stg.setIfInBounds o x) (o + 1) xs

/-- `stg[0..cnt)`, the staged bytes in stream order (10_state.md R21; 43_finalize.md R155). -/
def State.staged (s : State) : List Byte := s.stg.toList.take s.cnt.toNat

/-! ### INIT's operation -/

/-- The lanes of `initialize(seed)` (41_init.md R121). -/
def initLanes (seed : Word) : Lanes where
  lane0 := seed + P1 + P2
  lane1 := seed + P2
  lane2 := seed
  lane3 := seed - P1

/-- `(lane[0..3], cnt, tot) <- initialize(seed)` (41_init.md R120, R121). -/
def initState (seed : Word) (s : State) : State :=
  { s with lanes := initLanes seed, cnt := 0, tot := 0 }

/-! ### The block mixer and absorb -/

/-- `blockMix(B)` (42_ingest.md R132): lane `i` is mixed with the `i`-th little-endian word of `B`. -/
def blockMix (block : List Byte) (l : Lanes) : Lanes where
  lane0 := mix l.lane0 (LE64 block 0)
  lane1 := mix l.lane1 (LE64 block 8)
  lane2 := mix l.lane2 (LE64 block 16)
  lane3 := mix l.lane3 (LE64 block 24)

/-- Block-mix of the first `n` 32-byte blocks of `b`, in order: the loop of 42_ingest.md R131 step 3, which
mixes `b[32j .. 32j+32)` for `j` from 0 up. -/
def mixBlocks (n : Nat) (b : List Byte) (l : Lanes) : Lanes :=
  (List.range n).foldl (fun l j => blockMix ((b.drop (32 * j)).take 32) l) l

/-- `absorb(b)` for a byte sequence of any length (42_ingest.md R131, R133). -/
def absorb (b : List Byte) (s : State) : State :=
  let cnt := s.cnt.toNat
  let tot := s.tot + BitVec.ofNat 64 b.length
  if cnt + b.length < 32 then
    { s with
      tot := tot
      stg := writeStg s.stg cnt b
      cnt := BitVec.ofNat 5 (cnt + b.length) }
  else
    let full := writeStg s.stg cnt (b.take (32 - cnt))
    let rest := b.drop (32 - cnt)
    let left := rest.drop (32 * (rest.length / 32))
    { s with
      tot := tot
      lanes := mixBlocks (rest.length / 32) rest (blockMix full.toList s.lanes)
      stg := writeStg full 0 left
      cnt := BitVec.ofNat 5 left.length }

/-! ### The response channel -/

/-- `respond(v)`: append to the tail of the response queue (00_scope.md R12; 10_state.md R26). -/
def respond (v : Word) (s : State) : State := { s with rq := s.rq ++ [v] }

/-- `cmd_ready` (70_reset_and_hazards.md R236): 1 while RQ holds fewer than RSP_DEPTH words. -/
def State.cmdReady (depth : Nat) (s : State) : Bool := decide (s.rq.length < depth)

/-- `rsp_valid` (30_encoding.md R60): 1 exactly when the queue is not empty. -/
def State.rspValid (s : State) : Bool := !s.rq.isEmpty

/-- `rsp_word` (30_encoding.md R60): the head of the queue, offered while `rsp_valid` is 1. -/
def State.rspWord (s : State) : Option Word := s.rq.head?

/-- The host raises `rsp_ready` once: the head response, if there is one, leaves the queue for the host
(30_encoding.md R60; 10_state.md R26; log 3). -/
def takeResponse (s : State) : State :=
  match s.rq with
  | [] => s
  | v :: rest => { s with rq := rest, rsp := s.rsp ++ [v] }

/-! ### The exception, and reset -/

/-- `raise IllegalCommand(c)` (60_exceptions.md R202): the first cause wins, ERR is set, nothing else
changes and there is no response. There is no return from it (R206). -/
def raiseIllegal (c : IllegalCause) (s : State) : State :=
  { s with err := true, ecause := if s.err then s.ecause else c.code }

/-- The reset step (70_reset_and_hazards.md R230): the core holds the state of R34, and responses still in
RQ are lost. What the host has yet to do and what it has accepted are not the core's (log 20). -/
def resetCore (s : State) : State := { State.reset with inbox := s.inbox, rsp := s.rsp }

/-! ### Which event comes next -/

/-- The next host event and the events that remain. While commands are not accepted (`ready = false`) the
command words wait in order, and the host's other acts go on past them (70_reset_and_hazards.md R236, C6;
log 2). -/
def nextEvent (ready : Bool) : List HostEvent → Option (HostEvent × List HostEvent)
  | [] => none
  | .send w :: rest =>
    if ready then some (.send w, rest)
    else (nextEvent ready rest).map fun p => (p.1, .send w :: p.2)
  | e :: rest => some (e, rest)

/-- The host's oldest event is to offer `w`, and it has first taken as many responses as leave room in the
queue for a command to be accepted (log 11). -/
def offerWord (w : CmdWord) (s : State) : State :=
  let k := s.rq.length - (Config.rspDepth - 1)
  { s with inbox := .send w :: s.inbox, rq := s.rq.drop k, rsp := s.rsp ++ s.rq.take k }

end Sys2Proof.Machine
end

