-- ==== Sys2Proof/Machine/Control.lean ====
section
/-! DEFINITION. NOP and RDREG (44_control.md). -/

namespace Sys2Proof.Machine

/-- NOP (R180): no state changes and there is no response. -/
def execNop (s : State) : Host.Outcome State Fault Refusal := .next s

/-- RDREG (R181): the selected register goes into the response queue; nothing else changes. -/
def execRdreg (sel : RegSel) (s : State) : Host.Outcome State Fault Refusal :=
  .next (respond (readReg s sel) s)

end Sys2Proof.Machine
end

