-- ==== Sys2Proof/Machine/Final.lean ====
section
/-! DEFINITION. FINAL and the finalisation path selector (43_finalize.md). -/

namespace Sys2Proof.Machine

/-- The long-path seed value (R152): converge, then the merge rounds of lanes 0 to 3 in this order. -/
def longSeed (l : Lanes) : Word :=
  let acc := rotl l.lane0 1 + rotl l.lane1 7 + rotl l.lane2 12 + rotl l.lane3 18
  let acc := mergeRound acc l.lane0
  let acc := mergeRound acc l.lane1
  let acc := mergeRound acc l.lane2
  mergeRound acc l.lane3

/-- The short-path seed value (R153). -/
def shortSeed (l : Lanes) : Word := l.lane2 + P5

/-- The tail 8-byte step (R156). -/
def tail8 (acc v : Word) : Word := rotl (acc ^^^ mix 0 v) 27 * P1 + P4

/-- The tail 4-byte step (R157): the product is taken modulo 2^64, not 2^32 (C1; log 15). -/
def tail4 (acc : Word) (v : BitVec 32) : Word := rotl (acc ^^^ (v.setWidth 64 * P1)) 23 * P2 + P3

/-- The tail byte step (R158): no additive constant. -/
def tail1 (acc : Word) (c : Byte) : Word := rotl (acc ^^^ (c.setWidth 64 * P5)) 11 * P1

/-- `n` tail 8-byte steps, from offset 0 upward (R155). -/
def tail8Steps (t : List Byte) (n : Nat) (acc : Word) : Word :=
  (List.range n).foldl (fun acc j => tail8 acc (LE64 t (8 * j))) acc

/-- The tail byte steps, one per byte, in order (R155). -/
def tail1Steps (t : List Byte) (acc : Word) : Word := t.foldl tail1 acc

/-- The tail fold (R155): `cnt div 8` 8-byte steps, one 4-byte step if at least 4 bytes remain, then the
remaining bytes one by one. -/
def tailFold (t : List Byte) (acc : Word) : Word :=
  let p := 8 * (t.length / 8)
  let acc := tail8Steps t (t.length / 8) acc
  if 4 ≤ t.length - p then tail1Steps (t.drop (p + 4)) (tail4 acc (LE32 t p))
  else tail1Steps (t.drop p) acc

/-- `finalize()` (R161): the path selector (R151), the length fold (R154), the tail fold, the avalanche
(R159). It reads lanes, `tot`, `cnt` and `stg[0..cnt)` only. -/
def finalize (s : State) : Word :=
  let acc := if s.long then longSeed s.lanes else shortSeed s.lanes
  avalanche (tailFold s.staged (acc + s.tot))

/-- FINAL for either value of FINAL_REINIT (R150, R160): the digest of the state before the command goes into
the response queue, and with FINAL_REINIT the hash state is then `initialize(0)`. -/
def finalWith (reinit : Bool) (s : State) : State :=
  let t := respond (finalize s) s
  if reinit then initState 0 t else t

/-- FINAL (R150) with this hardware's FINAL_REINIT. -/
def execFinal (s : State) : Host.Outcome State Fault Refusal := .next (finalWith Config.finalReinit s)

end Sys2Proof.Machine
end

