-- ==== Sys2Proof/Machine/Ingest.lean ====
section
/-! DEFINITION. INGEST (42_ingest.md). -/

namespace Sys2Proof.Machine

/-- INGEST (R130): `absorb(b)`. A decoded beat has at most 8 bytes; R131 gives `absorb` for every length,
and so does this (log 14). -/
def execIngest (beat : List Byte) (s : State) : Host.Outcome State Fault Refusal := .next (absorb beat s)

end Sys2Proof.Machine
end

