-- ==== Sys2Proof/Machine/Init.lean ====
section
/-! DEFINITION. INIT (41_init.md). -/

namespace Sys2Proof.Machine

/-- INIT (R120): `(lane[0..3], cnt, tot) <- initialize(seed)`; stg, ERR, ECAUSE and RQ stay. -/
def execInit (seed : Word) (s : State) : Host.Outcome State Fault Refusal := .next (initState seed s)

end Sys2Proof.Machine
end

