-- ==== Sys2Proof/Machine/Dispatch.lean ====
section
/-! DEFINITION. The effect of each command (30_encoding.md R64), one arm per constructor. -/

namespace Sys2Proof.Machine

def exec (i : Instr) (s : State) : Host.Outcome State Fault Refusal :=
  match i with
  | .nop => Sys2Proof.Machine.execNop s
  | .init seed => Sys2Proof.Machine.execInit seed s
  | .ingest beat => Sys2Proof.Machine.execIngest beat s
  | .final => Sys2Proof.Machine.execFinal s
  | .rdreg sel => Sys2Proof.Machine.execRdreg sel s

end Sys2Proof.Machine
end

