-- ==== Sys2Proof/Machine/Step.lean ====
section
/-! DEFINITION. One step of the machine: the next host event takes its effect (00_scope.md R13; log 1). -/

namespace Sys2Proof.Machine

/-- An accepted command word takes effect (30_encoding.md R65): the decoded command, or
`raise IllegalCommand(c)`, after which the core goes on (60_exceptions.md R202, R212). -/
def runWord (w : CmdWord) (s : State) : Host.Outcome State Fault Refusal :=
  match decode w with
  | .cmd i => exec i s
  | .illegal c => .next (raiseIllegal c s)

/-- One step of a core whose response queue holds `depth` words. With no event that can happen, the core
idles or is stuck and its state stays (70_reset_and_hazards.md R236; log 2). -/
def stepAt (depth : Nat) (s : State) : Host.Outcome State Fault Refusal :=
  match nextEvent (s.cmdReady depth) s.inbox with
  | none => .next s
  | some (.send w, rest) => runWord w { s with inbox := rest }
  | some (.take, rest) => .next (takeResponse { s with inbox := rest })
  | some (.rst, rest) => .next (resetCore { s with inbox := rest })

/-- One step of this hardware. -/
def step (s : State) : Host.Outcome State Fault Refusal := stepAt Config.rspDepth s

/-- `s` with the word offered so that the very next step accepts it (log 11). -/
def State.withFetchWord (s : State) (nbits w : Nat) : State :=
  offerWord (BitVec.ofNat 80 (w % 2 ^ nbits)) s

end Sys2Proof.Machine
end

