-- ==== Sys2Proof/Machine/Design.lean ====
section
/-! DEFINITION. A design of N_INST independent core instances (60_exceptions.md R209; 00_scope.md R7). -/

namespace Sys2Proof.Machine

/-- `n` instances, each with its own complete state and its own channels (R209). -/
structure Design (n : Nat) where
  insts : Vector State n
  deriving DecidableEq, Repr

/-- A step of instance `k`. Commands to different instances are unordered, so any instance may move (log 12). -/
def Design.stepAt {n : Nat} (d : Design n) (k : Fin n) : Host.Outcome (Design n) Fault Refusal :=
  match step d.insts[k] with
  | .next t => .next { insts := d.insts.set k t }
  | .fault r => .fault r
  | .refused r => .refused r

end Sys2Proof.Machine
end

