-- ==== Sys2Proof/Machine/Pseudo.lean ====
section
/-! DEFINITION. The assembler lines of 30_encoding.md R71 as data, with the word each encodes to, and the
pseudo-instructions of R73 as the commands they expand to (log 18). -/

namespace Sys2Proof.Machine

/-- A line of the assembler (R71), its numbers already read. -/
inductive AsmLine where
  | nop
  | init (seed : Word)
  /-- `INGEST <len>, <u64>`, `len` 0 to 8. -/
  | ingest (len : Fin 9) (v : Word)
  | final
  | rdreg (sel : RegSel)
  /-- `.word`, the only way to write an illegal command. -/
  | word (w : CmdWord)
  deriving DecidableEq, Repr

/-- The word a line encodes to (R71): ignored fields are written as 0. -/
def asmWord : AsmLine → CmdWord
  | .nop => wordOf 0 0 0 0
  | .init seed => wordOf seed 0 0 1
  | .ingest len v => wordOf (BitVec.ofNat 64 (v.toNat % 2 ^ (8 * len.val))) 0 (BitVec.ofNat 4 len.val) 2
  | .final => wordOf 0 0 0 3
  | .rdreg sel => wordOf 0 0 sel.code 4
  | .word w => w

/-- `INGESTW v`: `INGEST 8, v`. -/
def asmIngestw (v : Word) : List Instr := [.ingest (beatOf v 8)]

/-- `INGESTB b`: beat `j` holds bytes `8j` to `8j + min(8, n - 8j) - 1`, for `j < ceil(n/8)`. -/
def asmIngestb (b : List Byte) : List Instr :=
  (List.range ((b.length + 7) / 8)).map fun j => .ingest ((b.drop (8 * j)).take 8)

/-- `HASH seed, b`: `INIT seed`, `INGESTB b`, `FINAL`. -/
def asmHash (seed : Word) (b : List Byte) : List Instr := .init seed :: asmIngestb b ++ [.final]

/-- `RDSTAT`: `RDREG 0`. -/
def asmRdstat : List Instr := [.rdreg .status]

/-- `RDTOTAL`: `RDREG 1`. -/
def asmRdtotal : List Instr := [.rdreg .total]

/-- `RDLANE i`: `RDREG 2+i`. -/
def asmRdlane (i : Fin 4) : List Instr :=
  match i with
  | 0 => [.rdreg .lane0]
  | 1 => [.rdreg .lane1]
  | 2 => [.rdreg .lane2]
  | 3 => [.rdreg .lane3]

end Sys2Proof.Machine
end

