-- ==== Sys2Proof/WellFormed.lean ====
section
/-! DEFINITION. Which terms of `Instr` some command word stands for.
The one check is LEN <= BEAT_BYTES (30_encoding.md R61, R65 cause 4): a seed is any 64-bit value,
and a reserved selector is no `RegSel`. -/

namespace Sys2Proof

/-- `i` is a command some legal word encodes. -/
abbrev Instr.WellFormed (i : Instr) : Prop :=
  match i with
  | .nop => True
  | .init _ => True
  | .ingest beat => beat.length ≤ Config.beatBytes
  | .final => True
  | .rdreg _ => True

end Sys2Proof
end

