-- ==== Sys2Proof/Safety.lean ====
section
/-! DEFINITION. What claims are stated in: the invariant, agreement up to the unspecified staging bytes,
runs of several commands, and the digest of a byte stream. -/

namespace Sys2Proof.Machine

/-- What holds in every state reached from reset by commands, for a queue of `depth` words:
`cnt = tot mod 32` (10_state.md R32), RQ within its capacity (R26), and an ECAUSE that is 0 exactly when
ERR is 0 and never a reserved code (R25; 60_exceptions.md R201). -/
structure State.Inv (depth : Nat) (s : State) : Prop where
  cnt_eq : s.cnt.toNat = s.tot.toNat % 32
  rq_le : s.rq.length ≤ depth
  ecause_zero : s.ecause = 0 ↔ s.err = false
  ecause_le : s.ecause.toNat ≤ 5

/-- No illegal command since reset: the premise 60_exceptions.md R212 asks a claim to name. -/
abbrev State.Clean (s : State) : Prop := s.err = false

/-- The hash state (lanes, `cnt`, `tot` and `stg[0..cnt)`) agrees: what 42_ingest.md R135 compares. -/
structure SameHash (s t : State) : Prop where
  lanes_eq : s.lanes = t.lanes
  cnt_eq : s.cnt = t.cnt
  tot_eq : s.tot = t.tot
  staged_eq : s.staged = t.staged

/-- Two states differ at most in the unspecified bytes `stg[k]`, `k >= cnt` (10_state.md R21; U8). -/
structure SameUpToUnspecified (s t : State) : Prop where
  hash : SameHash s t
  err_eq : s.err = t.err
  ecause_eq : s.ecause = t.ecause
  rq_eq : s.rq = t.rq
  inbox_eq : s.inbox = t.inbox
  rsp_eq : s.rsp = t.rsp

/-- Two outcomes of a step are next states that differ at most in the unspecified bytes. -/
def SameNext (x y : Host.Outcome State Fault Refusal) : Prop :=
  ∃ s t, x = .next s ∧ y = .next t ∧ SameUpToUnspecified s t

/-- The commands of a list, one after the other, stopping at the first that answers no next state. -/
def execAll : List Instr → State → Host.Outcome State Fault Refusal
  | [], s => .next s
  | i :: is, s =>
    match exec i s with
    | .next t => execAll is t
    | .fault r => .fault r
    | .refused r => .refused r

/-- The accepted command words of a list, one after the other; an illegal word is recorded (60_exceptions.md
R202). The host takes each response as it appears, so the queue holds no word back. -/
def runWords : List CmdWord → State → Host.Outcome State Fault Refusal
  | [], s => .next s
  | w :: ws, s =>
    match runWord w s with
    | .next t => runWords ws t
    | .fault r => .fault r
    | .refused r => .refused r

/-- The bytes a word adds to the stream (20_memory.md R42): its beat if it is an INGEST, else none. -/
def beatOfWord (w : CmdWord) : List Byte :=
  match decode w with
  | .cmd (.ingest b) => b
  | _ => []

/-- The word is an INIT. -/
def isInit (w : CmdWord) : Bool :=
  match decode w with
  | .cmd (.init _) => true
  | _ => false

/-- The lanes after a stream `b` under a seed: one block-mix for each whole 32-byte block of `b`, in order
(42_ingest.md R135). -/
def streamLanes (seed : Word) (b : List Byte) : Lanes := mixBlocks (b.length / 32) b (initLanes seed)

/-- The bytes of a stream that fill no block. -/
def streamTail (b : List Byte) : List Byte := b.drop (32 * (b.length / 32))

/-- XXH64 of a byte stream under a seed, written without any staging (43_finalize.md R161 over the stream):
the function of `(s, b)` alone that R163 speaks of. -/
def xxh64 (seed : Word) (b : List Byte) : Word :=
  let tot : Word := BitVec.ofNat 64 b.length
  let acc := if 32 ≤ tot.toNat then longSeed (streamLanes seed b) else shortSeed (streamLanes seed b)
  avalanche (tailFold (streamTail b) (acc + tot))

end Sys2Proof.Machine
end

