-- ==== Sys2Proof/Certificates/Slice0/Obligations.lean ====
section
/-! DEFINITION. The statements for the provers, in the order of OBLIGATIONS.json.
Each docstring names the rule it formalises; "log n" is notes/assumptions/n.md. -/

open Sys2Proof Sys2Proof.Machine

/-! ### Encoding -/

/-- 30_encoding.md R61, R65, R71: no bit of a well-formed command's encoding is dropped or misread. -/
def Obligations.DecodeOfEncodeIsTheCommand : Prop :=
  ∀ i : Instr, i.WellFormed → decode (encode i) = .cmd i

/-- 30_encoding.md R62, R65, R71: a decoded command is well formed, and its canonical word has the bits of the
word it was decoded from wherever the command uses them, and 0 in the payload bits it ignores. -/
def Obligations.DecodedCommandHasItsWordsUsedBits : Prop :=
  ∀ (w : CmdWord) (i : Instr), decode w = .cmd i →
    i.WellFormed ∧
    (∀ n, n < 16 → (encode i).getLsbD n = w.getLsbD n) ∧
    (∀ seed, i = .init seed → encode i = w) ∧
    (∀ beat, i = .ingest beat →
      (∀ n, n < 16 + 8 * beat.length → (encode i).getLsbD n = w.getLsbD n) ∧
      (∀ n, 16 + 8 * beat.length ≤ n → (encode i).getLsbD n = false)) ∧
    ((i = .nop ∨ i = .final ∨ ∃ r, i = .rdreg r) →
      ∀ n, 16 ≤ n → (encode i).getLsbD n = false)

/-- 30_encoding.md R66: the predicate `legal(w)` holds exactly when `decode(w)` is not Illegal. -/
def Obligations.LegalWordsAreTheDecodedOnes : Prop :=
  ∀ w : CmdWord,
    (∃ i, decode w = .cmd i) ↔
      ((w.extractLsb' 0 4).toNat ≤ 4 ∧
       w.extractLsb' 8 8 = 0 ∧
       ((w.extractLsb' 0 4).toNat ∈ [0, 1, 3] → w.extractLsb' 4 4 = 0) ∧
       ((w.extractLsb' 0 4).toNat = 2 → (w.extractLsb' 4 4).toNat ≤ 8) ∧
       ((w.extractLsb' 0 4).toNat = 4 → (w.extractLsb' 4 4).toNat ≤ 5))

/-- 30_encoding.md R65: the checks in its order on the word read as a number, and the execution of an illegal
verdict. -/
def Obligations.DecoderMakesTheChecksInOrder : Prop :=
  ∀ w : CmdWord,
    let op := w.toNat % 16
    let a := w.toNat / 16 % 16
    let rsv := w.toNat / 256 % 256
    let pay := w.toNat / 65536
    decode w =
      (if 5 ≤ op then .illegal .reservedOp
       else if rsv ≠ 0 then .illegal .reservedField
       else if (op = 0 ∨ op = 1 ∨ op = 3) ∧ a ≠ 0 then .illegal .nonzeroA
       else if op = 2 ∧ 8 < a then .illegal .badLen
       else if op = 4 ∧ 5 < a then .illegal .badSel
       else if op = 0 then .cmd .nop
       else if op = 1 then .cmd (.init (BitVec.ofNat 64 pay))
       else if op = 2 then
         .cmd (.ingest ((List.range a).map fun k => BitVec.ofNat 8 (pay / 2 ^ (8 * k))))
       else if op = 3 then .cmd .final
       else .cmd (.rdreg ([.status, .total, .lane0, .lane1, .lane2, .lane3].getD a .status))) ∧
    ∀ (c : IllegalCause) (s : State), decode w = .illegal c → runWord w s = .next (raiseIllegal c s)

/-- 30_encoding.md R62, R67 (D7): bits a command ignores do not change what a word decodes to. -/
def Obligations.IgnoredBitsDoNotChangeTheCommand : Prop :=
  ∀ v w : CmdWord, (∀ n, n < 16 → v.getLsbD n = w.getLsbD n) →
    ((w.toNat % 16 = 0 ∨ w.toNat % 16 = 3 ∨ w.toNat % 16 = 4) → decode v = decode w) ∧
    (w.toNat % 16 = 2 →
      (∀ n, n < 16 + 8 * (w.toNat / 16 % 16) → v.getLsbD n = w.getLsbD n) → decode v = decode w)

/-- spec/opcode_table.json: a word decodes to a row's command exactly when it has the row's match under its
mask and meets the row's constraint. So no two rows overlap. -/
def Obligations.OpcodeTableRowsSelectTheCommands : Prop :=
  ∀ w : CmdWord,
    (decode w = .cmd .nop ↔ w &&& 0x0000000000000000FFFF = 0x00000000000000000000) ∧
    ((∃ seed, decode w = .cmd (.init seed)) ↔ w &&& 0x0000000000000000FFFF = 0x00000000000000000001) ∧
    ((∃ beat, decode w = .cmd (.ingest beat)) ↔
      w &&& 0x0000000000000000FF0F = 0x00000000000000000002 ∧ (w.extractLsb' 4 4).toNat ≤ 8) ∧
    (decode w = .cmd .final ↔ w &&& 0x0000000000000000FFFF = 0x00000000000000000003) ∧
    ((∃ r, decode w = .cmd (.rdreg r)) ↔
      w &&& 0x0000000000000000FF0F = 0x00000000000000000004 ∧ (w.extractLsb' 4 4).toNat ≤ 5)

/-- 30_encoding.md R74: the ten words written out there. -/
def Obligations.EncodingExamplesOfTheSpec : Prop :=
  ∀ p ∈ ([(.nop, 0x0000000000000000_00_00),
          (.init 0, 0x0000000000000000_00_01),
          (.init 1, 0x0000000000000001_00_01),
          (.ingest [0xC0, 0xBA, 0x8A, 0x3C, 0xD5, 0x62, 0x04, 0x00], 0x000462D53C8ABAC0_00_82),
          (.ingest [0x61, 0x62, 0x63], 0x0000000000636261_00_32),
          (.ingest [], 0x0000000000000000_00_02),
          (.final, 0x0000000000000000_00_03),
          (.rdreg .status, 0x0000000000000000_00_04),
          (.rdreg .total, 0x0000000000000000_00_14),
          (.rdreg .lane3, 0x0000000000000000_00_54)] : List (Instr × CmdWord)),
    encode p.1 = p.2 ∧ decode p.2 = .cmd p.1

/-- 30_encoding.md R71: every assembler line but `.word` writes the canonical word of its command, with the bytes
at or above `len` as 0, and `.word` writes the word as given. -/
def Obligations.AssemblerWritesTheCanonicalWord : Prop :=
  ∀ (v : Word) (len : Fin 9) (r : RegSel) (w : CmdWord),
    asmWord .nop = encode .nop ∧
    asmWord (.init v) = encode (.init v) ∧
    asmWord (.ingest len v) = encode (.ingest (beatOf v len.val)) ∧
    decode (asmWord (.ingest len v)) = .cmd (.ingest (beatOf v len.val)) ∧
    (∀ n, 16 + 8 * len.val ≤ n → (asmWord (.ingest len v)).getLsbD n = false) ∧
    asmWord .final = encode .final ∧
    asmWord (.rdreg r) = encode (.rdreg r) ∧
    asmWord (.word w) = w

/-! ### Arithmetic primitives -/

/-- 40_primitives.md R105: both forms of the rotation, and its examples. -/
def Obligations.RotateLeftMovesEveryBit : Prop :=
  (∀ (x : Word) (r : Nat), 1 ≤ r → r ≤ 63 →
    (rotl x r).toNat = (x.toNat * 2 ^ r % 2 ^ 64 ||| x.toNat / 2 ^ (64 - r)) ∧
    ∀ i, i < 64 → (rotl x r).getLsbD i = x.getLsbD ((i + (64 - r)) % 64)) ∧
  rotl 1 31 = 0x0000000080000000 ∧
  rotl 0x8000000000000000 1 = 0x0000000000000001 ∧
  rotl P1 1 = 0x3C6EF3630BD7950F

/-- 40_primitives.md R106, R107: the byte at the lowest offset is the least significant. -/
def Obligations.LittleEndianAssembly : Prop :=
  (∀ (b : List Byte) (o : Nat), o + 8 ≤ b.length →
    (LE64 b o).toNat = ∑ k ∈ Finset.range 8, (b.getD (o + k) 0).toNat * 2 ^ (8 * k)) ∧
  (∀ (b : List Byte) (o : Nat), o + 4 ≤ b.length →
    (LE32 b o).toNat = ∑ k ∈ Finset.range 4, (b.getD (o + k) 0).toNat * 2 ^ (8 * k))

/-- 40_primitives.md R109, R110, R111: the three operators as the spec writes them, and their corner cases,
whose numbers rest on the constants of R100 (log 8). -/
def Obligations.MixMergeRoundAndAvalanche : Prop :=
  (∀ acc input : Word, mix acc input = rotl (acc + input * P2) 31 * P1) ∧
  (∀ acc v : Word, mergeRound acc v = (acc ^^^ mix 0 v) * P1 + P4) ∧
  (∀ acc a b c d : Word,
    a = acc ^^^ (acc >>> 33) → b = a * P2 → c = b ^^^ (b >>> 29) → d = c * P3 →
    avalanche acc = d ^^^ (d >>> 32)) ∧
  mix 0 0 = 0 ∧ mix 0 1 = 0x7F0E345BE3649CD2 ∧ mix 1 0 = 0xC2F5E54380000000 ∧
  mix 0xFFFFFFFFFFFFFFFF 0xFFFFFFFFFFFFFFFF = 0xE2BA51F296AF98A7 ∧
  avalanche 0 = 0 ∧ avalanche 1 = 0x283A72A5B9AB93D3 ∧
  avalanche 0xFFFFFFFFFFFFFFFF = 0x100AB62DAADD9289 ∧ avalanche P5 = 0xEF46DB3751D8E999

/-- 20_memory.md R43: `INGEST 8, v` puts the little-endian bytes of `v` into the stream. -/
def Obligations.PayloadBytesReadBackTheWord : Prop :=
  ∀ v : Word, (beatOf v 8).length = 8 ∧ LE64 (beatOf v 8) 0 = v ∧
    decode (wordOf v 0 8 2) = .cmd (.ingest (beatOf v 8))

/-! ### NOP and INIT -/

/-- 44_control.md R180: every payload gives the same NOP, it changes nothing, and its illegal forms. -/
def Obligations.NopChangesNothing : Prop :=
  ∀ (x : Word) (s : State),
    decode (wordOf x 0 0 0) = .cmd .nop ∧
    exec .nop s = .next s ∧
    (∀ a : BitVec 4, a ≠ 0 → decode (wordOf x 0 a 0) = .illegal .nonzeroA) ∧
    (∀ (a : BitVec 4) (rsv : BitVec 8), rsv ≠ 0 → decode (wordOf x rsv a 0) = .illegal .reservedField)

/-- 41_init.md R120, R121: the state INIT leaves, and everything it leaves alone. -/
def Obligations.InitLoadsTheSeedState : Prop :=
  ∀ (seed : Word) (s : State),
    decode (wordOf seed 0 0 1) = .cmd (.init seed) ∧
    (∀ a : BitVec 4, a ≠ 0 → decode (wordOf seed 0 a 1) = .illegal .nonzeroA) ∧
    (∀ (a : BitVec 4) (rsv : BitVec 8), rsv ≠ 0 → decode (wordOf seed rsv a 1) = .illegal .reservedField) ∧
    ∃ t, exec (.init seed) s = .next t ∧
      t.lanes.lane0 = seed + P1 + P2 ∧ t.lanes.lane1 = seed + P2 ∧ t.lanes.lane2 = seed ∧
      t.lanes.lane3 = seed - P1 ∧ t.cnt = 0 ∧ t.tot = 0 ∧ t.long = false ∧
      t.stg = s.stg ∧ t.err = s.err ∧ t.ecause = s.ecause ∧ t.rq = s.rq ∧
      t.inbox = s.inbox ∧ t.rsp = s.rsp ∧
      (seed = 0 → t.lanes = ⟨0x60EA27EEADC0B5D6, 0xC2B2AE3D27D4EB4F, 0x0000000000000000, 0x61C8864E7A143579⟩) ∧
      (seed = 1 → t.lanes = ⟨0x60EA27EEADC0B5D7, 0xC2B2AE3D27D4EB50, 0x0000000000000001, 0x61C8864E7A14357A⟩) ∧
      (seed = 0xFFFFFFFFFFFFFFFF → t.lanes.lane0 = 0x60EA27EEADC0B5D5) ∧
      (seed = P1 → t.lanes.lane3 = 0)

/-! ### INGEST and the block mixer

A beat of a decoded word has at most 8 bytes. What `exec` does with a longer one is the model's choice: it
absorbs it as R131's `absorb` absorbs any length (log 14). -/

/-- 42_ingest.md R131: the four steps of absorb, told through the staged bytes, and the frame.
The rule gives absorb for any length and INGEST a beat of at most 8 bytes; that a longer beat, which no word
decodes to, is absorbed too is the model's choice (log 14).
The bytes at or above `cnt` are unspecified (R21), so nothing is said of them. -/
def Obligations.IngestFollowsTheFourSteps : Prop :=
  ∀ (b : List Byte) (s : State), ∃ t, exec (.ingest b) s = .next t ∧
    t.tot = s.tot + BitVec.ofNat 64 b.length ∧
    (s.cnt.toNat + b.length < 32 →
      t.lanes = s.lanes ∧ t.cnt.toNat = s.cnt.toNat + b.length ∧ t.staged = s.staged ++ b) ∧
    (32 ≤ s.cnt.toNat + b.length →
      let block := s.staged ++ b.take (32 - s.cnt.toNat)
      let rest := b.drop (32 - s.cnt.toNat)
      block.length = 32 ∧
      t.lanes = mixBlocks (rest.length / 32) rest (blockMix block s.lanes) ∧
      t.cnt.toNat = rest.length % 32 ∧
      t.staged = rest.drop (32 * (rest.length / 32))) ∧
    t.err = s.err ∧ t.ecause = s.ecause ∧ t.rq = s.rq ∧ t.inbox = s.inbox ∧ t.rsp = s.rsp

/-- 42_ingest.md R135's reason: a block-mix is applied exactly to each whole 32-byte block of the staged bytes
followed by the beat, in order, and the remainder is staged. For a beat over 8 bytes it is log 14's. -/
def Obligations.IngestConsumesWholeBlocks : Prop :=
  ∀ (b : List Byte) (s : State), ∃ t, exec (.ingest b) s = .next t ∧
    t.lanes = mixBlocks ((s.staged ++ b).length / 32) (s.staged ++ b) s.lanes ∧
    t.staged = (s.staged ++ b).drop (32 * ((s.staged ++ b).length / 32)) ∧
    t.cnt.toNat = (s.cnt.toNat + b.length) % 32

/-- 42_ingest.md R132: a beat that completes a block mixes each lane with its little-endian word, that lane
reading nothing of the others, and the worked example. For a beat over 8 bytes it is log 14's. -/
def Obligations.CompletedBlockMixesEachLane : Prop :=
  (∀ (b : List Byte) (s : State), s.cnt.toNat + b.length = 32 →
    ∃ t, exec (.ingest b) s = .next t ∧ t.cnt = 0 ∧
      ∀ (i : Fin 4) (w : Word),
        w.toNat = ∑ k ∈ Finset.range 8, ((s.staged ++ b).getD (8 * i.val + k) 0).toNat * 2 ^ (8 * k) →
        t.lanes.get i = rotl (s.lanes.get i + w * P2) 31 * P1) ∧
  mix 0x60EA27EEADC0B5D6 0x0706050403020100 = 0xF4B53B57406B5E99

/-- 42_ingest.md R133: the total length is the sum of the byte counts modulo 2^64, whatever the buffering. For a
beat over 8 bytes it is log 14's. -/
def Obligations.TotalLengthCountsEveryByte : Prop :=
  ∀ (beats : List (List Byte)) (s : State), ∃ t,
    execAll (beats.map Instr.ingest) s = .next t ∧
    t.tot.toNat = (s.tot.toNat + (beats.map List.length).sum) % 2 ^ 64

/-- 42_ingest.md R134: an empty beat, with any payload, leaves the whole state unchanged. -/
def Obligations.EmptyBeatChangesNothing : Prop :=
  ∀ (x : Word) (s : State),
    decode (wordOf x 0 0 2) = .cmd (.ingest []) ∧ exec (.ingest []) s = .next s

/-- 42_ingest.md R130: the word of an INGEST, its illegal forms, and what it does not touch. -/
def Obligations.IngestWordsAndTheirFrame : Prop :=
  ∀ (x : Word) (a : BitVec 4) (s : State),
    (a.toNat ≤ 8 → ∃ t, runWord (wordOf x 0 a 2) s = .next t ∧
      exec (.ingest ((List.range a.toNat).map fun k => x.extractLsb' (8 * k) 8)) s = .next t ∧
      t.status.extractLsb' 0 5 = BitVec.ofNat 5 (s.cnt.toNat + a.toNat) ∧
      t.long = decide (32 ≤ (s.tot.toNat + a.toNat) % 2 ^ 64) ∧
      t.err = s.err ∧ t.ecause = s.ecause ∧ t.rq = s.rq) ∧
    (8 < a.toNat → decode (wordOf x 0 a 2) = .illegal .badLen) ∧
    (∀ rsv : BitVec 8, rsv ≠ 0 → decode (wordOf x rsv a 2) = .illegal .reservedField)

/-- 42_ingest.md R137: a decoded beat performs at most one block-mix. -/
def Obligations.OneBeatMixesAtMostOneBlock : Prop :=
  ∀ (w : CmdWord) (beat : List Byte) (s : State), decode w = .cmd (.ingest beat) →
    s.cnt.toNat + beat.length ≤ 39 ∧
    ∃ t, exec (.ingest beat) s = .next t ∧
      ((s.cnt.toNat + beat.length < 32 ∧ t.lanes = s.lanes) ∨
       (32 ≤ s.cnt.toNat + beat.length ∧
        t.lanes = blockMix (s.staged ++ beat.take (32 - s.cnt.toNat)) s.lanes))

/-- 42_ingest.md R136: 31 bytes and then 1 more, and 32 bytes at once, each perform exactly one block-mix.
The rule speaks of absorb; that one INGEST can absorb more than 8 bytes is the model's choice (log 14). -/
def Obligations.BlockBoundaryLaw : Prop :=
  ∀ (b : List Byte) (x : Byte) (s : State), s.cnt = 0 → b.length = 31 →
    (∃ t u, exec (.ingest b) s = .next t ∧ t.lanes = s.lanes ∧
      exec (.ingest [x]) t = .next u ∧ u.lanes = blockMix (b ++ [x]) s.lanes ∧ u.cnt = 0) ∧
    (∃ v, exec (.ingest (b ++ [x])) s = .next v ∧ v.lanes = blockMix (b ++ [x]) s.lanes ∧ v.cnt = 0)

/-- 42_ingest.md R135: any split of the same bytes gives the same hash state and the same digest.
Pieces over 8 bytes are absorbed at once by the model's choice (log 14). For a stream of 2^64 bytes or more,
whose digest no source vouches for (U12), it is the model's, by the same rules with `tot` wrapping (log 16). -/
def Obligations.ChunkingInvariance : Prop :=
  ∀ (seed : Word) (pieces : List (List Byte)) (s : State), ∃ t u,
    execAll (.init seed :: pieces.map Instr.ingest) s = .next t ∧
    execAll [.init seed, .ingest pieces.flatten] s = .next u ∧
    SameHash t u ∧ finalize t = finalize u

/-- 42_ingest.md R138, R135: the hash state after INIT and any beats, in terms of the stream alone.
Beats over 8 bytes are log 14's. -/
def Obligations.StreamDeterminesTheHashState : Prop :=
  ∀ (seed : Word) (pieces : List (List Byte)) (s : State), ∃ t,
    execAll (.init seed :: pieces.map Instr.ingest) s = .next t ∧
    t.lanes = mixBlocks (pieces.flatten.length / 32) pieces.flatten (initLanes seed) ∧
    t.staged = pieces.flatten.drop (32 * (pieces.flatten.length / 32)) ∧
    t.cnt.toNat = pieces.flatten.length % 32 ∧
    t.tot.toNat = pieces.flatten.length % 2 ^ 64 ∧
    (pieces.flatten.length < 2 ^ 64 → t.tot.toNat / 32 = pieces.flatten.length / 32)

/-- 10_state.md R33; 70_reset_and_hazards.md R239: while fewer than 32 bytes came since INIT, the lanes are the
INIT lanes and lane 2 is the seed; and without a wrap `tot < 32` says just that.
The words are any but INIT: data, readbacks, digests and illegal words. -/
def Obligations.ShortStreamKeepsTheSeedLanes : Prop :=
  ∀ (seed : Word) (ws : List CmdWord) (s : State),
    (∀ w ∈ ws, isInit w = false) → (ws.flatMap beatOfWord).length < 2 ^ 64 →
    ∃ t, runWords (encode (.init seed) :: ws) s = .next t ∧
      (t.tot.toNat < 32 ↔ (ws.flatMap beatOfWord).length < 32) ∧
      (t.tot.toNat < 32 →
        t.lanes = ⟨seed + P1 + P2, seed + P2, seed, seed - P1⟩ ∧ t.lanes.lane2 = seed)

/-! ### FINAL -/

/-- 43_finalize.md R151, R152, R153, R154, R159, R161: the digest FINAL responds, path by path, with the frame.
The tail fold is `TailFoldConsumesTheTail`. -/
def Obligations.FinalRespondsTheDigest : Prop :=
  ∀ s : State,
    let l := s.lanes
    let converge := rotl l.lane0 1 + rotl l.lane1 7 + rotl l.lane2 12 + rotl l.lane3 18
    let long := mergeRound (mergeRound (mergeRound (mergeRound converge l.lane0) l.lane1) l.lane2) l.lane3
    (32 ≤ s.tot.toNat → exec .final s =
      .next { s with rq := s.rq ++ [avalanche (tailFold s.staged (long + s.tot))] }) ∧
    (s.tot.toNat < 32 → exec .final s =
      .next { s with rq := s.rq ++ [avalanche (tailFold s.staged (l.lane2 + P5 + s.tot))] })

/-- 43_finalize.md R150: the word of a FINAL and its illegal forms. -/
def Obligations.FinalWordsAndTheirIllegalForms : Prop :=
  ∀ (x : Word) (s : State),
    decode (wordOf x 0 0 3) = .cmd .final ∧
    (∀ a : BitVec 4, a ≠ 0 →
      decode (wordOf x 0 a 3) = .illegal .nonzeroA ∧
      ∃ t, runWord (wordOf x 0 a 3) s = .next t ∧ t.rq = s.rq) ∧
    (∀ (a : BitVec 4) (rsv : BitVec 8), rsv ≠ 0 →
      decode (wordOf x rsv a 3) = .illegal .reservedField ∧
      ∃ t, runWord (wordOf x rsv a 3) s = .next t ∧ t.rq = s.rq)

/-- 43_finalize.md R155: the tail is consumed from its start in 8-byte steps while 8 bytes remain, then at most
one 4-byte step, then byte steps. -/
def Obligations.TailFoldConsumesTheTail : Prop :=
  ∀ (t : List Byte) (acc : Word),
    (8 ≤ t.length → tailFold t acc = tailFold (t.drop 8) (tail8 acc (LE64 t 0))) ∧
    (4 ≤ t.length → t.length < 8 → tailFold t acc = tailFold (t.drop 4) (tail4 acc (LE32 t 0))) ∧
    (1 ≤ t.length → t.length < 4 → tailFold t acc = tailFold (t.drop 1) (tail1 acc (t.getD 0 0))) ∧
    (t.length = 0 → tailFold t acc = acc)

/-- 43_finalize.md R156, R157, R158: the three tail steps as the spec writes them, with the worked examples.
The 4-byte product is taken modulo 2^64, not 2^32 (C1). -/
def Obligations.TailStepFormulas : Prop :=
  (∀ acc v : Word, tail8 acc v = rotl (acc ^^^ mix 0 v) 27 * P1 + P4) ∧
  (∀ (acc : Word) (v : BitVec 32), tail4 acc v = rotl (acc ^^^ (v.setWidth 64 * P1)) 23 * P2 + P3) ∧
  (∀ (acc : Word) (c : Byte), tail1 acc c = rotl (acc ^^^ (c.setWidth 64 * P5)) 11 * P1) ∧
  LE64 [0, 1, 2, 3, 4, 5, 6, 7] 0 = 0x0706050403020100 ∧
  tail8 0x27D4EB2F165667CD 0x0706050403020100 = 0xDB788D454485FF74 ∧
  LE32 [0, 1, 2, 3] 0 = 0x03020100 ∧
  tail4 0x27D4EB2F165667C9 0x03020100 = 0x5E0201BEC1FBE454 ∧
  tail1 0x27D4EB2F165667C6 0x00 = 0xA82DDB360290E3B2

/-- 43_finalize.md R162: the empty-input digest of seed 0, after INIT 0 and right after reset. -/
def Obligations.EmptyInputDigest : Prop :=
  (∀ s : State, ∃ t, execAll [.init 0, .final] s = .next t ∧ t.rq = s.rq ++ [0xEF46DB3751D8E999]) ∧
  (∃ t, exec .final State.reset = .next t ∧ t.rq = [0xEF46DB3751D8E999])

/-- 43_finalize.md R160: for both values of FINAL_REINIT the digest is the same; this hardware's FINAL leaves
the hash state, so a later INGEST continues the stream and a second FINAL responds the same digest; with
FINAL_REINIT the state is then `initialize(0)` and stg, ERR and ECAUSE stay.
That this hardware's value is a constant is log 7's form, and the later beat over 8 bytes is log 14's. -/
def Obligations.FinalForBothValuesOfReinit : Prop :=
  ∀ s : State,
    (finalWith true s).rq = s.rq ++ [finalize s] ∧ (finalWith false s).rq = s.rq ++ [finalize s] ∧
    finalWith true s =
      { s with lanes := initLanes 0, cnt := 0, tot := 0, rq := s.rq ++ [finalize s] } ∧
    exec .final s = .next (finalWith false s) ∧
    finalWith false s = { s with rq := s.rq ++ [finalize s] } ∧
    (∃ t, execAll [.final, .final] s = .next t ∧ t.rq = s.rq ++ [finalize s, finalize s]) ∧
    (∀ b : List Byte, ∃ t u, execAll [.final, .ingest b] s = .next t ∧ exec (.ingest b) s = .next u ∧
      SameHash t u ∧ finalize t = finalize u)

/-! ### RDREG and STATUS -/

/-- 10_state.md R29; 44_control.md R181: what each selector responds, that nothing else changes, and the
reserved selectors. -/
def Obligations.RdregRespondsTheRegister : Prop :=
  ∀ (x : Word) (s : State),
    (∀ r : RegSel, exec (.rdreg r) s = .next { s with rq := s.rq ++
      [match r with
       | .status => s.status
       | .total => s.tot
       | .lane0 => s.lanes.lane0
       | .lane1 => s.lanes.lane1
       | .lane2 => s.lanes.lane2
       | .lane3 => s.lanes.lane3] }) ∧
    decode (wordOf x 0 0 4) = .cmd (.rdreg .status) ∧
    decode (wordOf x 0 1 4) = .cmd (.rdreg .total) ∧
    decode (wordOf x 0 2 4) = .cmd (.rdreg .lane0) ∧
    decode (wordOf x 0 3 4) = .cmd (.rdreg .lane1) ∧
    decode (wordOf x 0 4 4) = .cmd (.rdreg .lane2) ∧
    decode (wordOf x 0 5 4) = .cmd (.rdreg .lane3) ∧
    (∀ a : BitVec 4, 6 ≤ a.toNat → decode (wordOf x 0 a 4) = .illegal .badSel) ∧
    (∀ (a : BitVec 4) (rsv : BitVec 8), rsv ≠ 0 → decode (wordOf x rsv a 4) = .illegal .reservedField)

/-- 10_state.md R28, R27: every field of STATUS at its bits, the reserved bits 0, and its reset value. -/
def Obligations.StatusFieldLayout : Prop :=
  (∀ s : State,
    s.status.extractLsb' 0 5 = s.cnt ∧
    s.status.getLsbD 5 = decide (32 ≤ s.tot.toNat) ∧
    s.status.getLsbD 6 = s.err ∧
    s.status.getLsbD 7 = false ∧
    s.status.extractLsb' 8 3 = s.ecause ∧
    (∀ i, 11 ≤ i → s.status.getLsbD i = false) ∧
    exec (.rdreg .status) s = .next { s with rq := s.rq ++ [s.status] }) ∧
  State.reset.status = 0

/-! ### IllegalCommand -/

/-- 60_exceptions.md R202, with the codes of R201: an accepted illegal word sets ERR, records the first cause,
changes nothing else and gives no response; the core goes on. -/
def Obligations.IllegalCommandIsRecorded : Prop :=
  ∀ (s : State) (w : CmdWord) (later : List HostEvent) (c : IllegalCause),
    s.rq.length < Config.rspDepth → s.inbox = .send w :: later → decode w = .illegal c →
    step s = .next { s with
      inbox := later
      err := true
      ecause := if s.err = true then s.ecause else
        match c with
        | .reservedOp => 1
        | .reservedField => 2
        | .nonzeroA => 3
        | .badLen => 4
        | .badSel => 5 }

/-- 60_exceptions.md R201: the condition each recorded code stands for. -/
def Obligations.CauseCodesMeanTheirConditions : Prop :=
  ∀ (w : CmdWord) (c : IllegalCause), decode w = .illegal c →
    let op := w.toNat % 16
    let a := w.toNat / 16 % 16
    let rsv := w.toNat / 256 % 256
    (c.code = 1 ∧ 5 ≤ op) ∨
    (c.code = 2 ∧ op ≤ 4 ∧ rsv ≠ 0) ∨
    (c.code = 3 ∧ (op = 0 ∨ op = 1 ∨ op = 3) ∧ a ≠ 0 ∧ rsv = 0) ∨
    (c.code = 4 ∧ op = 2 ∧ 8 < a ∧ rsv = 0) ∨
    (c.code = 5 ∧ op = 4 ∧ 5 < a ∧ rsv = 0)

/-- 10_state.md R25; 60_exceptions.md R203: after any words from reset, ERR says whether one was illegal, and
ECAUSE is the cause of the first, 0 if there was none. -/
def Obligations.ErrRecordsTheFirstIllegalWord : Prop :=
  ∀ ws : List CmdWord, ∃ t, runWords ws State.reset = .next t ∧
    (t.err = true ↔ ∃ w ∈ ws, ∃ c, decode w = .illegal c) ∧
    t.ecause =
      match ws.findSome? (fun w => match decode w with | .illegal c => some c | .cmd _ => none) with
      | some c => c.code
      | none => 0

/-- 60_exceptions.md R206: ERR and ECAUSE stay set, over any number of steps, until the host resets the core. -/
def Obligations.ErrStaysUntilReset : Prop :=
  ∀ (n : Nat) (s t : State), HostEvent.rst ∉ s.inbox → s.err = true →
    Host.Core.run core n s = .next t → t.err = true ∧ t.ecause = s.ecause

/-- 60_exceptions.md R200: every legal command answers a next state and raises nothing. -/
def Obligations.LegalCommandsRaiseNothing : Prop :=
  ∀ (i : Instr) (s : State), ∃ t, exec i s = .next t ∧ t.err = s.err ∧ t.ecause = s.ecause

/-- 60_exceptions.md R200, R202, R212; 70_reset_and_hazards.md R236: no step of any state faults or is refused. -/
def Obligations.EveryStepAnswersNext : Prop :=
  ∀ (depth : Nat) (s : State), ∃ t, stepAt depth s = .next t

/-! ### The step and the channels -/

/-- 00_scope.md R13; 30_encoding.md R60: an accepted word that decodes to a command is that command's effect.
The clauses on `withFetchWord` are the model's own host interface (log 11) and rest on no rule: the very next
step is that command's effect, on the state itself where the queue has room, and otherwise after the host has
taken, oldest first, the responses that stood in the way. -/
def Obligations.StepRunsTheDecodedCommand : Prop :=
  ∀ (s : State) (w : CmdWord) (i : Instr), decode w = .cmd i →
    (∀ later, s.rq.length < Config.rspDepth → s.inbox = .send w :: later →
      step s = exec i { s with inbox := later }) ∧
    (s.rq.length < Config.rspDepth → step (s.withFetchWord 80 w.toNat) = exec i s) ∧
    (∀ taken kept, s.rq = taken ++ kept → kept.length + 1 = Config.rspDepth →
      step (s.withFetchWord 80 w.toNat) = exec i { s with rq := kept, rsp := s.rsp ++ taken })

/-- 10_state.md R26; 30_encoding.md R60: the host removes the head word. `rsp` is the model's record of what it
has accepted (log 4), and an event on an empty queue does nothing (log 3). -/
def Obligations.HostTakesTheHeadResponse : Prop :=
  ∀ (depth : Nat) (s : State) (later : List HostEvent), s.inbox = .take :: later →
    (∀ v q, s.rq = v :: q →
      stepAt depth s = .next { s with inbox := later, rq := q, rsp := s.rsp ++ [v] }) ∧
    (s.rq = [] → stepAt depth s = .next { s with inbox := later })

/-- 70_reset_and_hazards.md R230; 10_state.md R34: the reset step. That it leaves what the host has yet to do
and has accepted is the model's (log 20); nothing is said of the unspecified `stg`. -/
def Obligations.ResetStepClearsTheCore : Prop :=
  ∀ (depth : Nat) (s : State) (later : List HostEvent), s.inbox = .rst :: later →
    ∃ t, stepAt depth s = .next t ∧ t.lanes = initLanes 0 ∧ t.cnt = 0 ∧ t.tot = 0 ∧
      t.err = false ∧ t.ecause = 0 ∧ t.rq = [] ∧ t.inbox = later ∧ t.rsp = s.rsp

/-- 10_state.md R34: the reset values the spec gives. -/
def Obligations.ResetValues : Prop :=
  State.reset.lanes.lane0 = 0x60EA27EEADC0B5D6 ∧ State.reset.lanes.lane0 = 0 + P1 + P2 ∧
  State.reset.lanes.lane1 = 0xC2B2AE3D27D4EB4F ∧ State.reset.lanes.lane1 = 0 + P2 ∧
  State.reset.lanes.lane2 = 0x0000000000000000 ∧
  State.reset.lanes.lane3 = 0x61C8864E7A143579 ∧ State.reset.lanes.lane3 = 0 - P1 ∧
  State.reset.cnt = 0 ∧ State.reset.tot = 0 ∧ State.reset.err = false ∧ State.reset.ecause = 0 ∧
  State.reset.rq = [] ∧ State.reset.status = 0

/-- 70_reset_and_hazards.md R236, C6: while the queue is full no command is accepted, whatever its opcode and
whatever the depth, the words wait in order, and the host's removal of the head goes ahead of them.
That a step with nothing to do leaves the state is the model's (log 2). -/
def Obligations.FullQueueAcceptsNoCommand : Prop :=
  ∀ (depth : Nat) (s : State), depth ≤ s.rq.length →
    (∃ t, stepAt depth s = .next t ∧
      t.inbox.filter (fun e => decide (e ≠ .take ∧ e ≠ .rst)) =
        s.inbox.filter (fun e => decide (e ≠ .take ∧ e ≠ .rst)) ∧
      (HostEvent.rst ∉ s.inbox →
        t.lanes = s.lanes ∧ t.stg = s.stg ∧ t.cnt = s.cnt ∧ t.tot = s.tot ∧
        t.err = s.err ∧ t.ecause = s.ecause ∧ t.rsp ++ t.rq = s.rsp ++ s.rq)) ∧
    (∀ (ws : List CmdWord) (later : List HostEvent) (v : Word) (q : List Word),
      s.inbox = ws.map HostEvent.send ++ .take :: later → s.rq = v :: q →
      stepAt depth s =
        .next { s with inbox := ws.map HostEvent.send ++ later, rq := q, rsp := s.rsp ++ [v] }) ∧
    (∀ ws : List CmdWord, s.inbox = ws.map HostEvent.send → stepAt depth s = .next s)

/-- 20_memory.md R49; 30_encoding.md R70: without a reset, what the host has accepted followed by what is queued
only grows at its end, by the digest of an accepted FINAL or the register of an accepted RDREG, each
of the state every earlier command left. -/
def Obligations.ResponsesComeInCommandOrder : Prop :=
  ∀ (s t : State), HostEvent.rst ∉ s.inbox → step s = .next t →
    t.rsp ++ t.rq = s.rsp ++ s.rq ∨
    ∃ w later, s.inbox = .send w :: later ∧ s.rq.length < Config.rspDepth ∧
      ((decode w = .cmd .final ∧ t.rsp ++ t.rq = s.rsp ++ s.rq ++ [finalize s]) ∨
       (∃ r, decode w = .cmd (.rdreg r) ∧ t.rsp ++ t.rq = s.rsp ++ s.rq ++ [readReg s r]))

/-! ### Frames over all commands -/

/-- 10_state.md R31: the access summary. Every command leaves what it does not write; only FINAL and RDREG
respond; no command touches the error state or the host's side. -/
def Obligations.CommandsWriteOnlyTheirState : Prop :=
  ∀ (i : Instr) (s t : State), exec i s = .next t →
    (t.err = s.err ∧ t.ecause = s.ecause ∧ t.inbox = s.inbox ∧ t.rsp = s.rsp) ∧
    ((i = .nop ∨ i = .final ∨ ∃ r, i = .rdreg r) →
      t.lanes = s.lanes ∧ t.stg = s.stg ∧ t.cnt = s.cnt ∧ t.tot = s.tot) ∧
    ((i = .nop ∨ (∃ seed, i = .init seed) ∨ ∃ b, i = .ingest b) → t.rq = s.rq) ∧
    ((∃ seed, i = .init seed) → t.stg = s.stg) ∧
    ((i = .final ∨ ∃ r, i = .rdreg r) → ∃ v, t.rq = s.rq ++ [v])

/-- 10_state.md R20; 41_init.md R122: over every step, the lanes change only by reset, by an accepted INIT, or
by an accepted INGEST that completes a block. -/
def Obligations.OnlyInitBlockMixAndResetWriteLanes : Prop :=
  ∀ (s t : State), step s = .next t → t.lanes ≠ s.lanes →
    (HostEvent.rst ∈ s.inbox ∧ t.lanes = initLanes 0) ∨
    ∃ w later, s.inbox = .send w :: later ∧ s.rq.length < Config.rspDepth ∧
      ((∃ seed, decode w = .cmd (.init seed) ∧ t.lanes = initLanes seed) ∨
       (∃ b, decode w = .cmd (.ingest b) ∧ 32 ≤ s.cnt.toNat + b.length ∧
        t.lanes = blockMix (s.staged ++ b.take (32 - s.cnt.toNat)) s.lanes))

/-! ### Invariants -/

/-- 10_state.md R34, R32: the invariant holds at reset, for a queue of any depth. -/
def Obligations.ResetMeetsTheInvariant : Prop := ∀ depth : Nat, State.reset.Inv depth

/-- 10_state.md R22, R25, R26, R32; 60_exceptions.md R201: every step from every state that meets the
invariant gives a state that meets it. -/
def Obligations.EveryStepKeepsTheInvariant : Prop :=
  ∀ (depth : Nat) (s t : State), s.Inv depth → stepAt depth s = .next t → t.Inv depth

/-- 10_state.md R32, R23: `cnt = tot mod 32` in every state reached from reset, whatever the host does. -/
def Obligations.StagedCountIsTotalModulo32 : Prop :=
  ∀ (events : List HostEvent) (n : Nat), ∃ t,
    Host.Core.run core n { State.reset with inbox := events } = .next t ∧
    t.cnt.toNat = t.tot.toNat % 32 ∧ t.cnt.toNat < 32

/-- 10_state.md R21 (U8): no step depends on a staging byte at or above `cnt`: two states that differ only
there stay so. -/
def Obligations.UnspecifiedBytesAreNeverObserved : Prop :=
  ∀ (s t : State), SameUpToUnspecified s t → SameNext (step s) (step t)

/-! ### The hash -/

/-- 43_finalize.md R163: the digest is a function of the seed and the stream alone, whatever the split into
beats and whatever NOP, RDREG and illegal words stand between, from any state.
That FINAL words may stand between too is R160's for FINAL_REINIT = false, this hardware's value (log 7), and not
R163's. For a stream of 2^64 bytes or more, whose digest no source vouches for (U12), it is the model's, by the
same rules with `tot` wrapping (log 16). -/
def Obligations.DigestIsAFunctionOfSeedAndStream : Prop :=
  ∀ (seed : Word) (ws : List CmdWord) (s : State), (∀ w ∈ ws, isInit w = false) →
    ∃ t, runWords (encode (.init seed) :: ws ++ [encode .final]) s = .next t ∧
      t.rq.getLast? = some (xxh64 seed (ws.flatMap beatOfWord))

/-- 30_encoding.md R73: the pseudo-instructions expand to legal commands and do what they say. They are lists of
commands here, not text (log 18), and `exec (.ingest b)` of a `b` over 8 bytes is log 14's.
For 2^64 bytes or more, whose digest no source vouches for (U12), the digest is the model's (log 16). -/
def Obligations.PseudoInstructionsExpand : Prop :=
  (∀ (seed : Word) (b : List Byte) (s : State),
    (∀ i ∈ asmHash seed b, i.WellFormed) ∧
    ∃ t u v, execAll (asmHash seed b) s = .next t ∧ t.rq = s.rq ++ [xxh64 seed b] ∧
      execAll (asmIngestb b) s = .next u ∧ exec (.ingest b) s = .next v ∧ SameHash u v) ∧
  (∀ v : Word, asmIngestw v = [.ingest (beatOf v 8)] ∧ LE64 (beatOf v 8) 0 = v) ∧
  asmRdstat.map encode = [0x04] ∧ asmRdtotal.map encode = [0x14] ∧
  (∀ i : Fin 4, (asmRdlane i).map encode = [BitVec.ofNat 80 (16 * (2 + i.val) + 4)])

/-- 70_reset_and_hazards.md R232; 30_encoding.md R73: the hash through the channels, from any state with an empty
queue: INIT, the beats, FINAL, and the wait for the response. The host's events and its record are the model's
(log 1, log 4). For 2^64 bytes or more, whose digest no source vouches for (U12), the digest is the model's
(log 16). -/
def Obligations.HashThroughTheChannels : Prop :=
  ∀ (seed : Word) (b : List Byte) (s : State) (later : List HostEvent),
    s.rq = [] →
    s.inbox = (asmHash seed b).map (fun i => HostEvent.send (encode i)) ++ .take :: later →
    ∃ t, Host.Core.run core ((asmHash seed b).length + 1) s = .next t ∧
      t.rsp = s.rsp ++ [xxh64 seed b] ∧ t.rq = [] ∧ t.inbox = later ∧
      t.err = s.err ∧ t.ecause = s.ecause

/-! ### Instances -/

/-- 60_exceptions.md R209: a step of one instance leaves every other instance's state, and steps of two
instances can be taken in either order. -/
def Obligations.InstancesShareNoState : Prop :=
  ∀ (n : Nat) (d : Design n) (j k : Fin n), j ≠ k →
    (∃ e, d.stepAt k = .next e ∧ e.insts[j] = d.insts[j] ∧ step d.insts[k] = .next e.insts[k]) ∧
    (∃ e f u, d.stepAt j = .next e ∧ e.stepAt k = .next u ∧ d.stepAt k = .next f ∧ f.stepAt j = .next u)
end

