-- ==== Sys2Proof/Laws/Decode.lean ====
section
/-! SUPPORT. The fields of a word built from its fields, the fields as numbers, and the bits of a little-endian
word: what proofs about the decoder and the byte order cite. -/

namespace Sys2Proof

open Sys2Proof.Machine

section
variable (p : Word) (r : BitVec 8) (a o : BitVec 4)

@[simp] theorem fieldOp_wordOf : fieldOp (wordOf p r a o) = o := by
  apply BitVec.eq_of_getLsbD_eq
  intro i hi
  simp only [fieldOp, wordOf, BitVec.getLsbD_extractLsb', BitVec.getLsbD_or, BitVec.getLsbD_shiftLeft,
    BitVec.getLsbD_setWidth]
  simp [hi, show i < 80 by omega, show i < 16 by omega, show i < 8 by omega]

@[simp] theorem fieldA_wordOf : fieldA (wordOf p r a o) = a := by
  apply BitVec.eq_of_getLsbD_eq
  intro i hi
  simp only [fieldA, wordOf, BitVec.getLsbD_extractLsb', BitVec.getLsbD_or, BitVec.getLsbD_shiftLeft,
    BitVec.getLsbD_setWidth]
  simp [hi, show i < 80 by omega, show 4 + i < 80 by omega, show 4 + i < 16 by omega, show 4 + i < 8 by omega]

@[simp] theorem fieldRsv_wordOf : fieldRsv (wordOf p r a o) = r := by
  apply BitVec.eq_of_getLsbD_eq
  intro i hi
  simp only [fieldRsv, wordOf, BitVec.getLsbD_extractLsb', BitVec.getLsbD_or, BitVec.getLsbD_shiftLeft,
    BitVec.getLsbD_setWidth]
  rw [BitVec.getLsbD_of_ge a _ (by omega), BitVec.getLsbD_of_ge o _ (by omega)]
  simp [hi, show i < 80 by omega, show 8 + i < 80 by omega, show 8 + i < 16 by omega]

@[simp] theorem fieldPayload_wordOf : fieldPayload (wordOf p r a o) = p := by
  apply BitVec.eq_of_getLsbD_eq
  intro i hi
  simp only [fieldPayload, wordOf, BitVec.getLsbD_extractLsb', BitVec.getLsbD_or, BitVec.getLsbD_shiftLeft,
    BitVec.getLsbD_setWidth]
  rw [BitVec.getLsbD_of_ge r _ (by omega), BitVec.getLsbD_of_ge a _ (by omega),
    BitVec.getLsbD_of_ge o _ (by omega)]
  simp [hi, show 16 + i < 80 by omega, show i < 80 by omega]

end

section
variable (w : CmdWord)

theorem fieldOp_toNat : (fieldOp w).toNat = w.toNat % 16 := by
  simp [fieldOp, BitVec.extractLsb'_toNat]

theorem fieldA_toNat : (fieldA w).toNat = w.toNat / 16 % 16 := by
  simp [fieldA, BitVec.extractLsb'_toNat, Nat.shiftRight_eq_div_pow]

theorem fieldRsv_toNat : (fieldRsv w).toNat = w.toNat / 256 % 256 := by
  simp [fieldRsv, BitVec.extractLsb'_toNat, Nat.shiftRight_eq_div_pow]

theorem fieldPayload_toNat : (fieldPayload w).toNat = w.toNat / 65536 := by
  have := w.isLt
  simp only [fieldPayload, BitVec.extractLsb'_toNat, Nat.shiftRight_eq_div_pow]
  omega

end

@[simp] theorem beatOf_length (p : Word) (n : Nat) : (beatOf p n).length = n := by simp [beatOf]

@[simp] theorem ofCode_code (r : RegSel) : RegSel.ofCode r.code = some r := by cases r <;> rfl

namespace Machine

@[simp] theorem leBits_nil (w : Nat) : leBits w [] = 0 := rfl

theorem leBits_cons (w : Nat) (x : Byte) (xs : List Byte) :
    leBits w (x :: xs) = x.setWidth w ||| (leBits w xs <<< 8) := rfl

/-- Bit `n` of a little-endian word is bit `n mod 8` of byte `n div 8`. -/
theorem leBits_getLsbD (w : Nat) (b : List Byte) (n : Nat) :
    (leBits w b).getLsbD n = (decide (n < w) && (b.getD (n / 8) 0).getLsbD (n % 8)) := by
  induction b generalizing n with
  | nil => simp
  | cons x xs ih =>
    rw [leBits_cons]
    simp only [BitVec.getLsbD_or, BitVec.getLsbD_setWidth, BitVec.getLsbD_shiftLeft, ih]
    by_cases h : n < 8
    · simp [h, show n / 8 = 0 by omega, show n % 8 = n by omega]
    · have hx : x.getLsbD n = false := BitVec.getLsbD_of_ge _ _ (by omega)
      by_cases hw : n < w
      · simp [h, hx, hw, show n / 8 = (n - 8) / 8 + 1 by omega, show (n - 8) % 8 = n % 8 by omega,
          show n - 8 < w by omega]
      · simp [hw]

end Machine

end Sys2Proof
end

