-- ==== Sys2Proof/Laws/State.lean ====
section
/-! SUPPORT. One lemma per field for each operation that updates the state, so that no proof unfolds an update. -/

namespace Sys2Proof.Machine

/-! ### initState -/

section
variable (seed : Word) (s : State)

@[simp] theorem initState_lanes : (initState seed s).lanes = initLanes seed := rfl
@[simp] theorem initState_stg : (initState seed s).stg = s.stg := rfl
@[simp] theorem initState_cnt : (initState seed s).cnt = 0 := rfl
@[simp] theorem initState_tot : (initState seed s).tot = 0 := rfl
@[simp] theorem initState_err : (initState seed s).err = s.err := rfl
@[simp] theorem initState_ecause : (initState seed s).ecause = s.ecause := rfl
@[simp] theorem initState_rq : (initState seed s).rq = s.rq := rfl
@[simp] theorem initState_inbox : (initState seed s).inbox = s.inbox := rfl
@[simp] theorem initState_rsp : (initState seed s).rsp = s.rsp := rfl

@[simp] theorem initState_staged : (initState seed s).staged = [] := List.take_zero

end

/-! ### respond -/

section
variable (v : Word) (s : State)

@[simp] theorem respond_lanes : (respond v s).lanes = s.lanes := rfl
@[simp] theorem respond_stg : (respond v s).stg = s.stg := rfl
@[simp] theorem respond_cnt : (respond v s).cnt = s.cnt := rfl
@[simp] theorem respond_tot : (respond v s).tot = s.tot := rfl
@[simp] theorem respond_err : (respond v s).err = s.err := rfl
@[simp] theorem respond_ecause : (respond v s).ecause = s.ecause := rfl
@[simp] theorem respond_rq : (respond v s).rq = s.rq ++ [v] := rfl
@[simp] theorem respond_inbox : (respond v s).inbox = s.inbox := rfl
@[simp] theorem respond_rsp : (respond v s).rsp = s.rsp := rfl
@[simp] theorem respond_staged : (respond v s).staged = s.staged := rfl

end

/-! ### raiseIllegal -/

section
variable (c : IllegalCause) (s : State)

@[simp] theorem raiseIllegal_lanes : (raiseIllegal c s).lanes = s.lanes := rfl
@[simp] theorem raiseIllegal_stg : (raiseIllegal c s).stg = s.stg := rfl
@[simp] theorem raiseIllegal_cnt : (raiseIllegal c s).cnt = s.cnt := rfl
@[simp] theorem raiseIllegal_tot : (raiseIllegal c s).tot = s.tot := rfl
@[simp] theorem raiseIllegal_err : (raiseIllegal c s).err = true := rfl
@[simp] theorem raiseIllegal_ecause :
    (raiseIllegal c s).ecause = if s.err then s.ecause else c.code := rfl
@[simp] theorem raiseIllegal_rq : (raiseIllegal c s).rq = s.rq := rfl
@[simp] theorem raiseIllegal_inbox : (raiseIllegal c s).inbox = s.inbox := rfl
@[simp] theorem raiseIllegal_rsp : (raiseIllegal c s).rsp = s.rsp := rfl
@[simp] theorem raiseIllegal_staged : (raiseIllegal c s).staged = s.staged := rfl

end

/-! ### State.reset and resetCore -/

/-- The reset lanes of 10_state.md R34 are those of `initialize(0)` (41_init.md R121, R122). -/
theorem reset_lanes : State.reset.lanes = initLanes 0 := by decide

section
variable (s : State)

@[simp] theorem resetCore_lanes : (resetCore s).lanes = initLanes 0 := by
  simp only [resetCore, reset_lanes]
@[simp] theorem resetCore_cnt : (resetCore s).cnt = 0 := by simp only [resetCore, State.reset]
@[simp] theorem resetCore_tot : (resetCore s).tot = 0 := by simp only [resetCore, State.reset]
@[simp] theorem resetCore_err : (resetCore s).err = false := by simp only [resetCore, State.reset]
@[simp] theorem resetCore_ecause : (resetCore s).ecause = 0 := by simp only [resetCore, State.reset]
@[simp] theorem resetCore_rq : (resetCore s).rq = [] := by simp only [resetCore, State.reset]
@[simp] theorem resetCore_inbox : (resetCore s).inbox = s.inbox := by simp only [resetCore, State.reset]
@[simp] theorem resetCore_rsp : (resetCore s).rsp = s.rsp := by simp only [resetCore, State.reset]
@[simp] theorem resetCore_staged : (resetCore s).staged = [] := List.take_zero

end

/-! ### takeResponse -/

section
variable (s : State)

theorem takeResponse_nil (h : s.rq = []) : takeResponse s = s := by simp [takeResponse, h]

theorem takeResponse_cons {v : Word} {q : List Word} (h : s.rq = v :: q) :
    takeResponse s = { s with rq := q, rsp := s.rsp ++ [v] } := by simp [takeResponse, h]

@[simp] theorem takeResponse_lanes : (takeResponse s).lanes = s.lanes := by
  unfold takeResponse; split <;> rfl
@[simp] theorem takeResponse_stg : (takeResponse s).stg = s.stg := by
  unfold takeResponse; split <;> rfl
@[simp] theorem takeResponse_cnt : (takeResponse s).cnt = s.cnt := by
  unfold takeResponse; split <;> rfl
@[simp] theorem takeResponse_tot : (takeResponse s).tot = s.tot := by
  unfold takeResponse; split <;> rfl
@[simp] theorem takeResponse_err : (takeResponse s).err = s.err := by
  unfold takeResponse; split <;> rfl
@[simp] theorem takeResponse_ecause : (takeResponse s).ecause = s.ecause := by
  unfold takeResponse; split <;> rfl
@[simp] theorem takeResponse_inbox : (takeResponse s).inbox = s.inbox := by
  unfold takeResponse; split <;> rfl
@[simp] theorem takeResponse_rq : (takeResponse s).rq = s.rq.tail := by
  unfold takeResponse; split <;> simp [*]

/-- A response leaves the queue for the host's record: nothing is lost and nothing overtakes. -/
theorem takeResponse_rsp_append_rq : (takeResponse s).rsp ++ (takeResponse s).rq = s.rsp ++ s.rq := by
  unfold takeResponse; split <;> simp [*]

end

/-! ### absorb -/

section
variable (b : List Byte) (s : State)

@[simp] theorem absorb_tot : (absorb b s).tot = s.tot + BitVec.ofNat 64 b.length := by
  unfold absorb; dsimp only; split <;> rfl
@[simp] theorem absorb_err : (absorb b s).err = s.err := by
  unfold absorb; dsimp only; split <;> rfl
@[simp] theorem absorb_ecause : (absorb b s).ecause = s.ecause := by
  unfold absorb; dsimp only; split <;> rfl
@[simp] theorem absorb_rq : (absorb b s).rq = s.rq := by
  unfold absorb; dsimp only; split <;> rfl
@[simp] theorem absorb_inbox : (absorb b s).inbox = s.inbox := by
  unfold absorb; dsimp only; split <;> rfl
@[simp] theorem absorb_rsp : (absorb b s).rsp = s.rsp := by
  unfold absorb; dsimp only; split <;> rfl

end

/-! ### finalWith -/

section
variable (s : State)

theorem finalWith_false : finalWith false s = respond (finalize s) s := rfl

theorem finalWith_true : finalWith true s = initState 0 (respond (finalize s) s) := rfl

end

end Sys2Proof.Machine
end

