-- ==== Sys2Proof/Laws/Ops.lean ====
section
/-! SUPPORT. What each shared operation does, once: the staging buffer as a list, the two cases of `absorb`,
the block mixer over appended streams, and the next host event. -/

namespace Sys2Proof.Machine

/-! ### The staging buffer -/

/-- Writing `b` at `o` replaces just the bytes `o` to `o + b.length - 1`. -/
theorem writeStg_toList (b : List Byte) : ∀ (stg : Vector Byte 32) (o : Nat), o + b.length ≤ 32 →
    (writeStg stg o b).toList = stg.toList.take o ++ b ++ stg.toList.drop (o + b.length) := by
  induction b with
  | nil => intro stg o _; simp [writeStg]
  | cons x xs ih =>
    intro stg o h
    simp only [List.length_cons] at h
    have ho : o < stg.toList.length := by simp; omega
    rw [writeStg, ih _ _ (by omega)]
    have hset : (stg.setIfInBounds o x).toList = stg.toList.set o x := by
      simp
    rw [hset, List.set_eq_take_append_cons_drop, if_pos ho]
    have ht : (stg.toList.take o).length = o := by rw [List.length_take]; omega
    rw [List.take_append, List.drop_append, ht, List.take_of_length_le (l := stg.toList.take o) (by omega),
      List.drop_of_length_le (l := stg.toList.take o) (by omega), show o + 1 - o = 1 by omega,
      show o + 1 + xs.length - o = xs.length + 1 by omega]
    simp only [List.take_succ_cons, List.take_zero, List.drop_succ_cons, List.drop_drop, List.length_cons,
      List.nil_append, List.append_assoc, List.cons_append]
    rw [show o + 1 + xs.length = o + (xs.length + 1) by omega]

@[simp] theorem staged_length (s : State) : s.staged.length = s.cnt.toNat := by
  have := s.cnt.isLt
  simp [State.staged]
  omega

/-! ### absorb -/

/-- The beat fills no block: it is staged after the bytes already there (42_ingest.md R131 step 1). -/
theorem absorb_short {b : List Byte} {s : State} (h : s.cnt.toNat + b.length < 32) :
    (absorb b s).lanes = s.lanes ∧
    (absorb b s).cnt.toNat = s.cnt.toNat + b.length ∧
    (absorb b s).staged = s.staged ++ b := by
  have hc : (BitVec.ofNat 5 (s.cnt.toNat + b.length)).toNat = s.cnt.toNat + b.length := by
    simp; omega
  refine ⟨by simp [absorb, h], by simp only [absorb, h, if_true, hc], ?_⟩
  simp only [absorb, h, if_true, State.staged, hc]
  rw [writeStg_toList _ _ _ (by omega), List.take_append_of_le_length (by simp; omega)]
  exact List.take_of_length_le (by simp)

/-- The beat completes a block: the staged bytes and the first of the beat are mixed, then each further whole
block of the beat, and the rest is staged (42_ingest.md R131 steps 2 to 4). -/
theorem absorb_full {b : List Byte} {s : State} (h : 32 ≤ s.cnt.toNat + b.length) :
    (absorb b s).lanes =
      mixBlocks ((b.drop (32 - s.cnt.toNat)).length / 32) (b.drop (32 - s.cnt.toNat))
        (blockMix (s.staged ++ b.take (32 - s.cnt.toNat)) s.lanes) ∧
    (absorb b s).cnt.toNat = (b.drop (32 - s.cnt.toNat)).length % 32 ∧
    (absorb b s).staged =
      (b.drop (32 - s.cnt.toNat)).drop (32 * ((b.drop (32 - s.cnt.toNat)).length / 32)) := by
  have hn : ¬ s.cnt.toNat + b.length < 32 := by omega
  have hlt := s.cnt.isLt
  have hfull : (writeStg s.stg s.cnt.toNat (b.take (32 - s.cnt.toNat))).toList =
      s.staged ++ b.take (32 - s.cnt.toNat) := by
    have hl : (b.take (32 - s.cnt.toNat)).length = 32 - s.cnt.toNat := by simp; omega
    rw [writeStg_toList _ _ _ (by omega), hl, List.drop_of_length_le (by simp; omega)]
    simp [State.staged]
  refine ⟨by simp only [absorb, hn, if_false, hfull], ?_, ?_⟩
  · simp only [absorb, hn, if_false, BitVec.toNat_ofNat, List.length_drop]
    omega
  · simp only [absorb, hn, if_false, State.staged, BitVec.toNat_ofNat]
    rw [writeStg_toList _ _ _ (by simp only [List.length_drop]; omega), Nat.mod_eq_of_lt (by
      simp only [List.length_drop]; omega)]
    simp

/-! ### The block mixer over streams -/

@[simp] theorem mixBlocks_zero (b : List Byte) (l : Lanes) : mixBlocks 0 b l = l := by simp [mixBlocks]

theorem mixBlocks_succ (n : Nat) (b : List Byte) (l : Lanes) :
    mixBlocks (n + 1) b l = blockMix ((b.drop (32 * n)).take 32) (mixBlocks n b l) := by
  simp [mixBlocks, List.range_succ]

@[simp] theorem mixBlocks_one (b : List Byte) (l : Lanes) : mixBlocks 1 b l = blockMix (b.take 32) l := by
  rw [mixBlocks_succ, mixBlocks_zero, Nat.mul_zero, List.drop_zero]

/-- Mixing `m + n` blocks is mixing the first `m` and then the next `n`. -/
theorem mixBlocks_add (m n : Nat) (b : List Byte) (l : Lanes) :
    mixBlocks (m + n) b l = mixBlocks n (b.drop (32 * m)) (mixBlocks m b l) := by
  induction n with
  | zero => rw [Nat.add_zero, mixBlocks_zero]
  | succ n ih => rw [← Nat.add_assoc, mixBlocks_succ, ih, mixBlocks_succ, List.drop_drop, Nat.mul_add]

/-- Only the first `32 * n` bytes matter to `n` blocks. -/
theorem mixBlocks_append (n : Nat) (b c : List Byte) (l : Lanes) (h : 32 * n ≤ b.length) :
    mixBlocks n (b ++ c) l = mixBlocks n b l := by
  induction n with
  | zero => rw [mixBlocks_zero, mixBlocks_zero]
  | succ n ih =>
    rw [mixBlocks_succ, mixBlocks_succ, ih (by omega), List.drop_append_of_le_length (by omega),
      List.take_append_of_le_length (by rw [List.length_drop]; omega)]

/-! ### The next host event -/

@[simp] theorem nextEvent_nil (ready : Bool) : nextEvent ready [] = none := rfl

@[simp] theorem nextEvent_send (w : CmdWord) (rest : List HostEvent) :
    nextEvent true (.send w :: rest) = some (.send w, rest) := rfl

@[simp] theorem nextEvent_take (ready : Bool) (rest : List HostEvent) :
    nextEvent ready (.take :: rest) = some (.take, rest) := rfl

@[simp] theorem nextEvent_rst (ready : Bool) (rest : List HostEvent) :
    nextEvent ready (.rst :: rest) = some (.rst, rest) := rfl

/-- The next event is one of the inbox; the others stay, in order. A command word is next only when the core
is ready, and then it is the oldest event. -/
theorem nextEvent_some {ready : Bool} {l rest : List HostEvent} {e : HostEvent}
    (h : nextEvent ready l = some (e, rest)) :
    (∃ ws : List CmdWord, ∃ later,
      l = ws.map HostEvent.send ++ e :: later ∧ rest = ws.map HostEvent.send ++ later) ∧
    ((∃ w, e = .send w) → ready = true ∧ l = e :: rest) := by
  induction l generalizing rest with
  | nil => simp at h
  | cons x xs ih =>
    cases x with
    | send w =>
      cases ready with
      | true =>
        simp at h
        obtain ⟨rfl, rfl⟩ := h
        exact ⟨⟨[], xs, rfl, rfl⟩, fun _ => ⟨rfl, rfl⟩⟩
      | false =>
        simp only [nextEvent, Bool.false_eq_true, if_false, Option.map_eq_some_iff] at h
        obtain ⟨p, hp, he⟩ := h
        obtain ⟨rfl, rfl⟩ := Prod.mk.inj he
        obtain ⟨⟨ws, later, h1, h2⟩, h3⟩ := ih (rest := p.2) hp
        exact ⟨⟨w :: ws, later, by simp [h1], by simp [h2]⟩, fun hs => absurd (h3 hs).1 (by simp)⟩
    | take =>
      simp at h
      obtain ⟨rfl, rfl⟩ := h
      exact ⟨⟨[], xs, rfl, rfl⟩, fun hs => absurd hs (by simp)⟩
    | rst =>
      simp at h
      obtain ⟨rfl, rfl⟩ := h
      exact ⟨⟨[], xs, rfl, rfl⟩, fun hs => absurd hs (by simp)⟩

/-- No event can happen: the inbox is empty, or it holds command words alone and the core is not ready. -/
theorem nextEvent_none {ready : Bool} {l : List HostEvent} (h : nextEvent ready l = none) :
    (l = [] ∨ ready = false) ∧ ∃ ws : List CmdWord, l = ws.map HostEvent.send := by
  induction l with
  | nil => exact ⟨.inl rfl, [], rfl⟩
  | cons x xs ih =>
    cases x with
    | send w =>
      cases ready with
      | true => simp at h
      | false =>
        simp only [nextEvent, Bool.false_eq_true, if_false, Option.map_eq_none_iff] at h
        obtain ⟨_, ws, hw⟩ := ih h
        exact ⟨.inr rfl, w :: ws, by simp [hw]⟩
    | take => simp at h
    | rst => simp at h

end Sys2Proof.Machine
end

