-- ==== Sys2Proof/Laws/PerInstr.lean ====
section
/-! SUPPORT. Statements made per instruction.
EncodesItsFields: the encoding of a well-formed command has its row's OP, RSV 0 and an A its row allows
(30_encoding.md R61, R64, R66). -/

namespace Sys2Proof.Laws.EncodesItsFields

def Statement : Instr → Prop
  | .nop => fieldOp (encode .nop) = 0 ∧ fieldRsv (encode .nop) = 0 ∧ fieldA (encode .nop) = 0
  | .init seed =>
    fieldOp (encode (.init seed)) = 1 ∧ fieldRsv (encode (.init seed)) = 0 ∧ fieldA (encode (.init seed)) = 0
  | .ingest beat =>
    Instr.WellFormed (.ingest beat) →
      fieldOp (encode (.ingest beat)) = 2 ∧ fieldRsv (encode (.ingest beat)) = 0 ∧
      (fieldA (encode (.ingest beat))).toNat = beat.length
  | .final => fieldOp (encode .final) = 3 ∧ fieldRsv (encode .final) = 0 ∧ fieldA (encode .final) = 0
  | .rdreg sel =>
    fieldOp (encode (.rdreg sel)) = 4 ∧ fieldRsv (encode (.rdreg sel)) = 0 ∧
    (fieldA (encode (.rdreg sel))).toNat ≤ 5

theorem nop : Statement .nop := by simp [Statement, encode]

theorem init (seed : Word) : Statement (.init seed) := by simp [Statement, encode]

theorem ingest (beat : List Byte) : Statement (.ingest beat) := by
  intro h
  have hb : beat.length ≤ 8 := h
  simp only [encode, fieldOp_wordOf, fieldRsv_wordOf, fieldA_wordOf, BitVec.toNat_ofNat, true_and]
  omega

theorem final : Statement .final := by simp [Statement, encode]

theorem rdreg (sel : RegSel) : Statement (.rdreg sel) := by
  cases sel <;> simp [Statement, encode, RegSel.code]

end Sys2Proof.Laws.EncodesItsFields
end

