-- ==== Sys2Proof/Laws/Step.lean ====
section
/-! SUPPORT. What a decoded word can be and what a step can do, once. -/

namespace Sys2Proof.Machine

/-! ### What the host still has to do plays no part in a command -/

section
variable (s : State) (events : List HostEvent)

@[simp] theorem staged_with_inbox : State.staged { s with inbox := events } = s.staged := rfl

@[simp] theorem finalize_with_inbox : finalize { s with inbox := events } = finalize s := rfl

@[simp] theorem readReg_with_inbox (r : RegSel) : readReg { s with inbox := events } r = readReg s r := by
  cases r <;> rfl

theorem absorb_with_inbox (b : List Byte) :
    absorb b { s with inbox := events } = { absorb b s with inbox := events } := by
  simp only [absorb]
  split <;> rfl

end

/-! ### Commands and steps -/

/-- Every command answers the next state of one shared operation. -/
theorem exec_cases (i : Instr) (s : State) : ∃ t, exec i s = .next t ∧
    ((i = .nop ∧ t = s) ∨
     (∃ seed, i = .init seed ∧ t = initState seed s) ∨
     (∃ b, i = .ingest b ∧ t = absorb b s) ∨
     (i = .final ∧ t = respond (finalize s) s) ∨
     (∃ r, i = .rdreg r ∧ t = respond (readReg s r) s)) := by
  cases i with
  | nop => exact ⟨_, rfl, .inl ⟨rfl, rfl⟩⟩
  | init seed => exact ⟨_, rfl, .inr (.inl ⟨_, rfl, rfl⟩)⟩
  | ingest b => exact ⟨_, rfl, .inr (.inr (.inl ⟨_, rfl, rfl⟩))⟩
  | final => exact ⟨_, rfl, .inr (.inr (.inr (.inl ⟨rfl, rfl⟩)))⟩
  | rdreg r => exact ⟨_, rfl, .inr (.inr (.inr (.inr ⟨_, rfl, rfl⟩)))⟩

theorem runWord_cmd {w : CmdWord} {i : Instr} (h : decode w = .cmd i) (s : State) :
    runWord w s = exec i s := by simp [runWord, h]

theorem runWord_illegal {w : CmdWord} {c : IllegalCause} (h : decode w = .illegal c) (s : State) :
    runWord w s = .next (raiseIllegal c s) := by simp [runWord, h]

/-- What one step does: nothing, an accepted word's effect, the host's taking a response, or reset. -/
theorem stepAt_cases (depth : Nat) (s : State) :
    ((s.inbox = [] ∨ depth ≤ s.rq.length) ∧ (∃ ws : List CmdWord, s.inbox = ws.map HostEvent.send) ∧
      stepAt depth s = .next s) ∨
    (∃ w rest, s.rq.length < depth ∧ s.inbox = .send w :: rest ∧
      stepAt depth s = runWord w { s with inbox := rest }) ∨
    (∃ (ws : List CmdWord) (later : List HostEvent),
      s.inbox = ws.map HostEvent.send ++ .take :: later ∧
      stepAt depth s = .next (takeResponse { s with inbox := ws.map HostEvent.send ++ later })) ∨
    (∃ (ws : List CmdWord) (later : List HostEvent),
      s.inbox = ws.map HostEvent.send ++ .rst :: later ∧
      stepAt depth s = .next (resetCore { s with inbox := ws.map HostEvent.send ++ later })) := by
  cases h : nextEvent (s.cmdReady depth) s.inbox with
  | none =>
    obtain ⟨h1, h2⟩ := nextEvent_none h
    refine .inl ⟨h1.imp_right fun hr => ?_, h2, by simp [stepAt, h]⟩
    simpa [State.cmdReady] using hr
  | some p =>
    obtain ⟨e, rest⟩ := p
    obtain ⟨⟨ws, later, h1, h2⟩, h3⟩ := nextEvent_some h
    cases e with
    | send w =>
      obtain ⟨hr, hl⟩ := h3 ⟨w, rfl⟩
      exact .inr (.inl ⟨w, rest, by simpa [State.cmdReady] using hr, hl, by simp [stepAt, h]⟩)
    | take => exact .inr (.inr (.inl ⟨ws, later, h1, by simp [stepAt, h, h2]⟩))
    | rst => exact .inr (.inr (.inr ⟨ws, later, h1, by simp [stepAt, h, h2]⟩))

/-- The step after `withFetchWord` runs the word, the host having taken the responses that stood in the way
(log 11). -/
theorem step_withFetchWord (s : State) (w : CmdWord) :
    step (s.withFetchWord 80 w.toNat) =
      runWord w { s with
        rq := s.rq.drop (s.rq.length - (Config.rspDepth - 1))
        rsp := s.rsp ++ s.rq.take (s.rq.length - (Config.rspDepth - 1)) } := by
  have hw : BitVec.ofNat 80 (w.toNat % 2 ^ 80) = w := by
    rw [Nat.mod_eq_of_lt w.isLt, BitVec.ofNat_toNat, BitVec.setWidth_eq]
  simp only [State.withFetchWord, hw]
  simp [step, stepAt, offerWord, State.cmdReady, Config.rspDepth]

end Sys2Proof.Machine
end

