-- ==== Sys2Proof/Tests/Slice0.lean ====
section
/-! SUPPORT. The model's own tests, and for each obligation with hypotheses a state and operands that meet them.
Expected values are the spec's: R-numbers are rules, letters and digits are vectors of 95_test_vectors.md. -/

namespace Sys2Proof.Tests

open Sys2Proof.Machine

/-! ### Helpers -/

/-- The state an outcome leaves, reset where it leaves none. -/
def after (o : Host.Outcome State Fault Refusal) : State :=
  match o with
  | .next t => t
  | _ => State.reset

/-- A state with these lanes, staged bytes and total length. -/
def staging (l : Lanes) (b : List Byte) (tot : Word) : State :=
  { State.reset with
    lanes := l
    cnt := BitVec.ofNat 5 b.length
    stg := writeStg State.reset.stg 0 b
    tot := tot }

/-- `bytes(a..a+n-1)` of 95_test_vectors.md. -/
def bytes (a n : Nat) : List Byte := (List.range n).map fun k => BitVec.ofNat 8 (a + k)

/-- The lanes after the block 0x00..0x1F from seed 0 (R130, G4). -/
def lanesG4 : Lanes := ⟨0xF4B53B57406B5E99, 0xC3D34B511FC32561, 0xCB26C007C8A1553F, 0x9A44D001A7F91C07⟩

/-- A state whose host still has these events. -/
def facing (s : State) (events : List HostEvent) : State := { s with inbox := events }

/-! ### WellFormed: each check refuses an ill-formed term -/

theorem test_wellFormed_refuses_nine_byte_beat : ¬ Instr.WellFormed (.ingest (bytes 0 9)) := by decide

theorem test_wellFormed_admits_eight_byte_beat : Instr.WellFormed (.ingest (bytes 0 8)) := by decide

/-! ### Decode: words written out from R61 and R64, one for every constructor and every cause -/

theorem test_decode_nop : decode 0xFFFFFFFFFFFFFFFF_00_00 = .cmd .nop := by decide

theorem test_decode_init : decode 0x9E3779B185EBCA87_00_01 = .cmd (.init 0x9E3779B185EBCA87) := by decide

theorem test_decode_ingest : decode 0xFFFFFFFFFF636261_00_32 = .cmd (.ingest [0x61, 0x62, 0x63]) := by decide

theorem test_decode_final : decode 0x0000000000000000_00_03 = .cmd .final := by decide

theorem test_decode_rdreg :
    [0x0000000000000000_00_04, 0x0000000000000000_00_14, 0x0000000000000000_00_24,
     0x0000000000000000_00_34, 0x0000000000000000_00_44, 0x0000000000000000_00_54].map decode =
    [.cmd (.rdreg .status), .cmd (.rdreg .total), .cmd (.rdreg .lane0),
     .cmd (.rdreg .lane1), .cmd (.rdreg .lane2), .cmd (.rdreg .lane3)] := by decide

/-- E1 to E12. -/
theorem test_decode_illegal :
    [0x0000000000000000_00_07, 0xFFFFFFFFFFFFFFFF_FF_FF, 0x0000000000000000_FF_07,
     0x0000000000000000_01_01, 0x0000000000000000_01_92, 0x0000000000000000_00_10,
     0x0000000000000005_00_11, 0x0000000000000000_00_23, 0x0000000000000000_00_92,
     0x0000000000000000_00_F2, 0x0000000000000000_00_64, 0x0000000000000000_00_F4].map decode =
    [.illegal .reservedOp, .illegal .reservedOp, .illegal .reservedOp,
     .illegal .reservedField, .illegal .reservedField, .illegal .nonzeroA,
     .illegal .nonzeroA, .illegal .nonzeroA, .illegal .badLen,
     .illegal .badLen, .illegal .badSel, .illegal .badSel] := by decide

theorem test_decodeTableWord_ingest :
    decodeTableWord 80 0x0000000000636261_00_32 = some (.ingest [0x61, 0x62, 0x63]) := by decide

/-! ### One step of each command -/

/-- T2. -/
theorem test_nop_changes_nothing :
    after (step (State.reset.withFetchWord 80 0xFFFFFFFFFFFFFFFF_00_00)) = State.reset := by decide

/-- I3: the additions wrap. -/
theorem test_init_wraps :
    (after (step (State.reset.withFetchWord 80 0xFFFFFFFFFFFFFFFF_00_01))).lanes =
      ⟨0x60EA27EEADC0B5D5, 0xC2B2AE3D27D4EB4E, 0xFFFFFFFFFFFFFFFF, 0x61C8864E7A143578⟩ := by decide

/-- I6: INIT in the middle of a hash. -/
theorem test_init_discards_the_hash :
    (after (exec (.init 0) (staging lanesG4 (bytes 32 8) 40))).status = 0 ∧
    (after (exec (.init 0) (staging lanesG4 (bytes 32 8) 40))).lanes = State.reset.lanes := by decide

/-- G5: the beat straddles the block boundary. -/
theorem test_ingest_straddles_the_block :
    let t := after (exec (.ingest (bytes 28 8)) (staging State.reset.lanes (bytes 0 28) 28))
    t.lanes = lanesG4 ∧ t.staged = [0x20, 0x21, 0x22, 0x23] ∧ t.tot = 36 ∧ t.status = 0x24 := by decide +kernel

/-- G3: the bytes at or above LEN are ignored. -/
theorem test_ingest_ignores_the_other_bytes :
    let t := after (step (State.reset.withFetchWord 80 0xFFFFFFFFFF636261_00_32))
    t.staged = [0x61, 0x62, 0x63] ∧ t.status = 0x3 ∧ t.lanes = State.reset.lanes := by decide

/-- F12: the longest tail, short path. -/
theorem test_final_short_path :
    (after (exec .final (staging State.reset.lanes (bytes 0 31) 31))).rq = [0xC346D2B59B4D8EE1] := by decide +kernel

/-- F16: the long path and a tail byte. -/
theorem test_final_long_path :
    (after (exec .final (staging lanesG4 [0x20] 33))).rq = [0x0C535D1ACAFB8EAD] := by decide

/-- E14: STAGED, ERR and ECAUSE of STATUS. -/
theorem test_rdreg_status :
    (after (exec (.rdreg .status)
      { staging State.reset.lanes [0x61, 0x62, 0x63] 3 with err := true, ecause := 1 })).rq = [0x143] := by decide

/-- T3. -/
theorem test_rdreg_lane3 :
    (after (step (State.reset.withFetchWord 80 0x0000000000000000_00_54))).rq = [0x61C8864E7A143579] := by decide

/-- E13: the first cause is kept. -/
theorem test_illegal_keeps_the_first_cause :
    (after (runWord 0x0000000000000000_00_07
      (after (runWord 0x0000000000000000_00_92 State.reset)))).status = 0x440 := by decide

/-- R236: a full queue holds an INIT back and the host's taking a response goes past it. -/
theorem test_full_queue_holds_commands :
    after (step (facing { State.reset with rq := [7] } [.send 0x01, .take])) =
      facing { State.reset with rsp := [7] } [.send 0x01] := by decide

/-! ### Witnesses: the hypotheses of each obligation can be met, at the boundary of each clause -/

theorem witness_DecodeOfEncodeIsTheCommand :
    Instr.WellFormed (.ingest (bytes 0 8)) ∧ Instr.WellFormed (.rdreg .lane3) ∧ Instr.WellFormed (.init 1) := by
  decide

theorem witness_DecodedCommandHasItsWordsUsedBits :
    decode 0xFFFFFFFFFFFFFFFF_00_01 = .cmd (.init 0xFFFFFFFFFFFFFFFF) ∧
    decode 0xFFFFFFFFFFFFFFFF_00_02 = .cmd (.ingest []) ∧
    decode 0x0706050403020100_00_82 = .cmd (.ingest (bytes 0 8)) ∧
    decode 0xFFFFFFFFFFFFFFFF_00_03 = .cmd .final := by decide

/-- The two words of each clause agree below bit 16, and for an INGEST below its last used bit. -/
theorem witness_IgnoredBitsDoNotChangeTheCommand :
    (∀ n, n < 16 → (0xFFFFFFFFFFFFFFFF_00_54 : CmdWord).getLsbD n = (0x54 : CmdWord).getLsbD n) ∧
    (0x54 : CmdWord).toNat % 16 = 4 ∧
    (0x01_00_12 : CmdWord).toNat % 16 = 2 ∧
    (∀ n, n < 16 + 8 * ((0x01_00_12 : CmdWord).toNat / 16 % 16) →
      (0xFF01_00_12 : CmdWord).getLsbD n = (0x01_00_12 : CmdWord).getLsbD n) := by decide

theorem witness_AssemblerWritesTheCanonicalWord : 16 + 8 * (3 : Fin 9).val ≤ 40 := by decide

theorem witness_RotateLeftMovesEveryBit : (1 ≤ 1 ∧ 1 ≤ 63) ∧ (1 ≤ 63 ∧ 63 ≤ 63) ∧ 0 < 64 := by decide

theorem witness_LittleEndianAssembly :
    0 + 8 ≤ (bytes 0 8).length ∧ 24 + 8 ≤ (bytes 0 32).length ∧ 3 + 4 ≤ (bytes 0 7).length := by decide

theorem witness_MixMergeRoundAndAvalanche :
    ∃ acc a b c d : Word,
      a = acc ^^^ (acc >>> 33) ∧ b = a * P2 ∧ c = b ^^^ (b >>> 29) ∧ d = c * P3 ∧ avalanche acc = 0x283A72A5B9AB93D3 :=
  ⟨1, _, _, _, _, rfl, rfl, rfl, rfl, by decide⟩

/-- A nonzero A and a nonzero RSV: the hypotheses of `NopChangesNothing`, `InitLoadsTheSeedState`,
`FinalWordsAndTheirIllegalForms`. -/
theorem witness_NopChangesNothing : (1 : BitVec 4) ≠ 0 ∧ (15 : BitVec 4) ≠ 0 ∧ (1 : BitVec 8) ≠ 0 := by decide

theorem witness_InitLoadsTheSeedState :
    (1 : BitVec 4) ≠ 0 ∧ (0x80 : BitVec 8) ≠ 0 ∧ (∃ seed : Word, seed = 0) ∧ (∃ seed : Word, seed = P1) :=
  ⟨by decide, by decide, ⟨0, rfl⟩, ⟨P1, rfl⟩⟩

theorem witness_FinalWordsAndTheirIllegalForms : (2 : BitVec 4) ≠ 0 ∧ (0xFF : BitVec 8) ≠ 0 := by decide

/-- `cnt + n` at 31 and at 32. -/
theorem witness_IngestFollowsTheFourSteps :
    (staging State.reset.lanes (bytes 0 23) 23).cnt.toNat + (bytes 0 8).length < 32 ∧
    32 ≤ (staging State.reset.lanes (bytes 0 24) 24).cnt.toNat + (bytes 0 8).length := by decide

theorem witness_CompletedBlockMixesEachLane :
    (staging State.reset.lanes (bytes 0 24) 24).cnt.toNat + (bytes 24 8).length = 32 ∧
    (0x1F1E1D1C1B1A1918 : Word).toNat = ∑ k ∈ Finset.range 8,
      (((staging State.reset.lanes (bytes 0 24) 24).staged ++ bytes 24 8).getD (8 * 3 + k) 0).toNat * 2 ^ (8 * k) := by
  decide +kernel

/-- A at 8, at 9 and at 15, and a nonzero RSV. -/
theorem witness_IngestWordsAndTheirFrame :
    (8 : BitVec 4).toNat ≤ 8 ∧ 8 < (9 : BitVec 4).toNat ∧ 8 < (15 : BitVec 4).toNat ∧ (1 : BitVec 8) ≠ 0 := by decide

theorem witness_OneBeatMixesAtMostOneBlock :
    decode 0x1F1E1D1C1B1A1918_00_82 = .cmd (.ingest (bytes 24 8)) := by decide

theorem witness_BlockBoundaryLaw : State.reset.cnt = 0 ∧ (bytes 0 31).length = 31 := by decide

/-- Data, a readback, a digest and an illegal word, and no INIT. -/
theorem witness_ShortStreamKeepsTheSeedLanes :
    (∀ w ∈ ([0x0000000000636261_00_32, 0x14, 0x03, 0x07] : List CmdWord), isInit w = false) ∧
    (([0x0000000000636261_00_32, 0x14, 0x03, 0x07] : List CmdWord).flatMap beatOfWord).length = 3 := by
  refine ⟨fun w hw => ?_, by decide⟩
  fin_cases hw <;> decide

theorem witness_DigestIsAFunctionOfSeedAndStream :
    ∀ w ∈ ([0x0000000000636261_00_32, 0x00, 0x14, 0x03, 0x07] : List CmdWord), isInit w = false := by
  intro w hw
  fin_cases hw <;> decide

/-- `tot` at 31 and at 32 (F28). -/
theorem witness_FinalRespondsTheDigest :
    (staging State.reset.lanes (bytes 0 31) 31).tot.toNat < 32 ∧ 32 ≤ (staging lanesG4 [] 32).tot.toNat := by decide

/-- Each range of tail lengths at its ends. -/
theorem witness_TailFoldConsumesTheTail :
    8 ≤ (bytes 0 8).length ∧ 8 ≤ (bytes 0 31).length ∧
    (4 ≤ (bytes 0 4).length ∧ (bytes 0 4).length < 8) ∧ (4 ≤ (bytes 0 7).length ∧ (bytes 0 7).length < 8) ∧
    (1 ≤ (bytes 0 1).length ∧ (bytes 0 1).length < 4) ∧ (1 ≤ (bytes 0 3).length ∧ (bytes 0 3).length < 4) ∧
    (bytes 0 0).length = 0 := by decide

/-- SEL at 6 and at 15, and a nonzero RSV. -/
theorem witness_RdregRespondsTheRegister :
    6 ≤ (6 : BitVec 4).toNat ∧ 6 ≤ (15 : BitVec 4).toNat ∧ (1 : BitVec 8) ≠ 0 := by decide

theorem witness_StatusFieldLayout : 11 ≤ 11 ∧ 11 ≤ 63 := by decide

theorem witness_IllegalCommandIsRecorded :
    (facing State.reset [.send 0x92]).rq.length < Config.rspDepth ∧
    (facing State.reset [.send 0x92]).inbox = .send 0x92 :: [] ∧ decode 0x92 = .illegal .badLen := by decide

/-- One word for each cause. -/
theorem witness_CauseCodesMeanTheirConditions :
    decode 0x05 = .illegal .reservedOp ∧ decode 0x0104 = .illegal .reservedField ∧
    decode 0x13 = .illegal .nonzeroA ∧ decode 0x92 = .illegal .badLen ∧ decode 0x64 = .illegal .badSel := by decide

/-- An error recorded, an INIT to come, one step. -/
theorem witness_ErrStaysUntilReset :
    ∃ t, HostEvent.rst ∉ (facing { State.reset with err := true, ecause := 4 } [.send 0x01]).inbox ∧
      (facing { State.reset with err := true, ecause := 4 } [.send 0x01]).err = true ∧
      Host.Core.run core 1 (facing { State.reset with err := true, ecause := 4 } [.send 0x01]) = .next t :=
  ⟨_, by decide, by decide, rfl⟩

/-- An empty queue, and a full one whose response the host takes. -/
theorem witness_StepRunsTheDecodedCommand :
    decode 0x03 = .cmd .final ∧ (facing State.reset [.send 0x03]).rq.length < Config.rspDepth ∧
    (facing State.reset [.send 0x03]).inbox = .send 0x03 :: [] ∧ State.reset.rq.length < Config.rspDepth ∧
    (facing { State.reset with rq := [7] } []).rq = [7] ++ [] ∧
    ([] : List Word).length + 1 = Config.rspDepth := by decide

theorem witness_HostTakesTheHeadResponse :
    (facing { State.reset with rq := [7, 8] } [.take]).inbox = .take :: [] ∧
    (facing { State.reset with rq := [7, 8] } [.take]).rq = 7 :: [8] ∧
    (facing State.reset [.take]).inbox = .take :: [] ∧ (facing State.reset [.take]).rq = [] := by decide

theorem witness_ResetStepClearsTheCore :
    (facing { State.reset with err := true, rq := [7] } [.rst, .send 0x03]).inbox = .rst :: [.send 0x03] := by decide

/-- A full queue of depth 1: with a command and a taking to come, and with commands alone. -/
theorem witness_FullQueueAcceptsNoCommand :
    1 ≤ (facing { State.reset with rq := [7] } [.send 0x01, .take]).rq.length ∧
    HostEvent.rst ∉ (facing { State.reset with rq := [7] } [.send 0x01, .take]).inbox ∧
    (facing { State.reset with rq := [7] } [.send 0x01, .take]).inbox =
      ([0x01] : List CmdWord).map HostEvent.send ++ .take :: [] ∧
    (facing { State.reset with rq := [7] } [.send 0x01, .take]).rq = 7 :: [] ∧
    (facing { State.reset with rq := [7] } [.send 0x01]).inbox = ([0x01] : List CmdWord).map HostEvent.send := by decide

theorem witness_ResponsesComeInCommandOrder :
    ∃ t, HostEvent.rst ∉ (facing State.reset [.send 0x03]).inbox ∧
      step (facing State.reset [.send 0x03]) = .next t ∧ t.rq = [0xEF46DB3751D8E999] :=
  ⟨_, by decide, rfl, by decide⟩

theorem witness_CommandsWriteOnlyTheirState :
    (∃ t, exec .nop State.reset = .next t) ∧ (∃ t, exec (.init 1) State.reset = .next t) ∧
    (∃ t, exec (.ingest [0x61]) State.reset = .next t) ∧ (∃ t, exec .final State.reset = .next t) ∧
    (∃ t, exec (.rdreg .total) State.reset = .next t) :=
  ⟨⟨_, rfl⟩, ⟨_, rfl⟩, ⟨_, rfl⟩, ⟨_, rfl⟩, ⟨_, rfl⟩⟩

/-- Each of the three writers of the lanes: an INIT, a completed block, a reset. -/
theorem witness_OnlyInitBlockMixAndResetWriteLanes :
    (∃ t, step (facing State.reset [.send 0x01_00_01]) = .next t ∧ t.lanes ≠ State.reset.lanes) ∧
    (∃ t, step (facing (staging State.reset.lanes (bytes 0 31) 31) [.send 0x1F_00_12]) = .next t ∧
      t.lanes ≠ State.reset.lanes) ∧
    (∃ t, step (facing (staging lanesG4 [] 32) [.rst]) = .next t ∧ t.lanes ≠ lanesG4) :=
  ⟨⟨_, rfl, by decide⟩, ⟨_, rfl, by decide +kernel⟩, ⟨_, rfl, by decide⟩⟩

/-- A state that meets the invariant with bytes staged and an error recorded, and a step of it. -/
theorem witness_EveryStepKeepsTheInvariant :
    ∃ s t : State, s.Inv 1 ∧ s.staged = [0x61, 0x62, 0x63] ∧ s.err = true ∧ stepAt 1 s = .next t :=
  ⟨facing { staging State.reset.lanes [0x61, 0x62, 0x63] 3 with err := true, ecause := 1 } [.send 0x03], _,
    ⟨by decide, by decide, by decide, by decide⟩, by decide, by decide, rfl⟩

/-- Two states that differ in `stg[31]` alone, which is not below `cnt`. -/
theorem witness_UnspecifiedBytesAreNeverObserved :
    ∃ s t : State, SameUpToUnspecified s t ∧ s ≠ t :=
  ⟨facing State.reset [.send 0x03],
    facing { State.reset with stg := State.reset.stg.setIfInBounds 31 0xAA } [.send 0x03],
    ⟨⟨rfl, rfl, rfl, by decide⟩, rfl, rfl, rfl, rfl, rfl⟩, by decide⟩

theorem witness_HashThroughTheChannels :
    State.reset.rq = [] ∧
    (facing State.reset ((asmHash 0 [0x61]).map (fun i => HostEvent.send (encode i)) ++ .take :: [])).inbox =
      [.send 0x01, .send 0x61_00_12, .send 0x03, .take] := by decide

/-- A design of two instances, and a step of one. -/
theorem witness_InstancesShareNoState :
    (0 : Fin 2) ≠ 1 ∧ ∃ e, (Design.mk (n := 2) (Vector.replicate 2 State.reset)).stepAt 1 = .next e :=
  ⟨by decide, ⟨_, rfl⟩⟩

end Sys2Proof.Tests
end

section
/-! SUPPORT. An offered command word takes effect: whatever the depth of the queue while there is room, and by way of
`withFetchWord` (log 11). -/

namespace Sys2Proof.Machine

/-- The oldest event offers a word and the queue has room: the word is accepted (30_encoding.md R60). -/
theorem stepAt_of_send {depth : Nat} {s : State} {w : CmdWord} {later : List HostEvent}
    (hroom : s.rq.length < depth) (hin : s.inbox = .send w :: later) :
    stepAt depth s = runWord w { s with inbox := later } := by
  simp [stepAt, State.cmdReady, hroom, hin]

/-- The queue has room already, so the host takes no response before the word is accepted. -/
theorem step_withFetchWord_of_room {s : State} (w : CmdWord) (hroom : s.rq.length < Config.rspDepth) :
    step (s.withFetchWord 80 w.toNat) = runWord w s := by
  have hk : s.rq.length - (Config.rspDepth - 1) = 0 := by omega
  simp [step_withFetchWord, hk]

/-- The host takes all but the last `rspDepth - 1` responses, and then the word is accepted. -/
theorem step_withFetchWord_of_append {s : State} (w : CmdWord) {taken kept : List Word}
    (hrq : s.rq = taken ++ kept) (hkept : kept.length + 1 = Config.rspDepth) :
    step (s.withFetchWord 80 w.toNat) = runWord w { s with rq := kept, rsp := s.rsp ++ taken } := by
  have hk : s.rq.length - (Config.rspDepth - 1) = taken.length := by
    rw [hrq, List.length_append]; omega
  rw [step_withFetchWord, hk, hrq, List.drop_left, List.take_left]

/-- Settles O40: each way of offering the word makes the step `runWord` of it, which is `exec` of the command it
decodes to. -/
theorem stepRunsTheDecodedCommand : Obligations.StepRunsTheDecodedCommand := by
  intro s w i hdec
  refine ⟨fun later hroom hin => ?_, fun hroom => ?_, fun taken kept hrq hkept => ?_⟩
  · exact (stepAt_of_send hroom hin).trans (runWord_cmd hdec _)
  · exact (step_withFetchWord_of_room w hroom).trans (runWord_cmd hdec s)
  · exact (step_withFetchWord_of_append w hrq hkept).trans (runWord_cmd hdec _)

end Sys2Proof.Machine
end

section
/-! SUPPORT. What a command, a word and a step answer, as equations and inversions, and the two inductions over runs:
what holds at first and is kept by every step, or by every word, holds of the state the run answers. Last, what a beat
that a word can carry does to the staged count and the lanes. -/

namespace Sys2Proof.Machine

/-! ### Commands -/

section
variable (s : State)

@[simp] theorem exec_nop : exec .nop s = .next s := rfl
@[simp] theorem exec_init (seed : Word) : exec (.init seed) s = .next (initState seed s) := rfl
@[simp] theorem exec_ingest (b : List Byte) : exec (.ingest b) s = .next (absorb b s) := rfl
@[simp] theorem exec_final : exec .final s = .next (respond (finalize s) s) := rfl
@[simp] theorem exec_rdreg (r : RegSel) : exec (.rdreg r) s = .next (respond (readReg s r) s) := rfl

end

/-- The next state of a command is what one shared operation makes of the state. -/
theorem exec_next {i : Instr} {s t : State} (h : exec i s = .next t) :
    (i = .nop ∧ t = s) ∨
    (∃ seed, i = .init seed ∧ t = initState seed s) ∨
    (∃ b, i = .ingest b ∧ t = absorb b s) ∨
    (i = .final ∧ t = respond (finalize s) s) ∨
    (∃ r, i = .rdreg r ∧ t = respond (readReg s r) s) := by
  obtain ⟨u, hu, hcases⟩ := exec_cases i s
  cases hu.symm.trans h
  exact hcases

/-- No command touches the error state (10_state.md R31; 60_exceptions.md R200). -/
theorem exec_error {i : Instr} {s t : State} (h : exec i s = .next t) : t.err = s.err ∧ t.ecause = s.ecause := by
  obtain ⟨-, rfl⟩ | ⟨seed, -, rfl⟩ | ⟨b, -, rfl⟩ | ⟨-, rfl⟩ | ⟨r, -, rfl⟩ := exec_next h <;> simp

/-! ### Words -/

/-- A word answers the next state of its command, or records its cause. -/
theorem runWord_cases (w : CmdWord) (s : State) : ∃ t, runWord w s = .next t ∧
    ((∃ i, decode w = .cmd i ∧ exec i s = .next t) ∨
     (∃ c, decode w = .illegal c ∧ t = raiseIllegal c s)) := by
  cases h : decode w with
  | cmd i =>
    obtain ⟨t, ht, -⟩ := exec_cases i s
    exact ⟨t, (runWord_cmd h s).trans ht, .inl ⟨i, rfl, ht⟩⟩
  | illegal c => exact ⟨_, runWord_illegal h s, .inr ⟨c, rfl, rfl⟩⟩

theorem runWord_next {w : CmdWord} {s t : State} (h : runWord w s = .next t) :
    (∃ i, decode w = .cmd i ∧ exec i s = .next t) ∨ (∃ c, decode w = .illegal c ∧ t = raiseIllegal c s) := by
  obtain ⟨u, hu, hcases⟩ := runWord_cases w s
  cases hu.symm.trans h
  exact hcases

/-- A property of the words run so far that every word of the list keeps holds when the list is done. -/
theorem runWords_invariant {P : List CmdWord → State → Prop} {ws : List CmdWord} {s : State} (hstart : P [] s)
    (hword : ∀ before, ∀ w ∈ ws, ∀ t u, P before t → runWord w t = .next u → P (before ++ [w]) u) :
    ∃ t, runWords ws s = .next t ∧ P ws t := by
  suffices ∀ before, P before s → ∃ t, runWords ws s = .next t ∧ P (before ++ ws) t from this [] hstart
  clear hstart
  induction ws generalizing s with
  | nil => exact fun before h => ⟨s, rfl, by simpa using h⟩
  | cons w ws ih =>
    intro before h
    obtain ⟨u, hu, -⟩ := runWord_cases w s
    obtain ⟨t, ht, hP⟩ := ih (fun b v hv => hword b v (List.mem_cons_of_mem w hv)) (before ++ [w])
      (hword before w List.mem_cons_self s u h hu)
    exact ⟨t, by simp [runWords, hu, ht], by simpa using hP⟩

/-! ### Steps -/

/-- The oldest event is the host's taking a response: it goes ahead whether or not the queue has room. -/
theorem stepAt_of_take {depth : Nat} {s : State} {later : List HostEvent} (hin : s.inbox = .take :: later) :
    stepAt depth s = .next (takeResponse { s with inbox := later }) := by
  simp [stepAt, hin]

/-- The next state of a step: the same state, or what a command, an illegal word, the host's taking a response or
reset makes of it. -/
theorem stepAt_next {depth : Nat} {s t : State} (h : stepAt depth s = .next t) :
    t = s ∨
    (∃ w rest, s.rq.length < depth ∧ s.inbox = .send w :: rest ∧ runWord w { s with inbox := rest } = .next t) ∨
    (∃ rest, t = takeResponse { s with inbox := rest }) ∨
    (HostEvent.rst ∈ s.inbox ∧ ∃ rest, t = resetCore { s with inbox := rest }) := by
  obtain ⟨-, -, hs⟩ | ⟨w, rest, hroom, hin, hs⟩ | ⟨ws, later, -, hs⟩ | ⟨ws, later, hin, hs⟩ := stepAt_cases depth s
  · cases hs.symm.trans h
    exact .inl rfl
  · exact .inr (.inl ⟨w, rest, hroom, hin, hs.symm.trans h⟩)
  · cases hs.symm.trans h
    exact .inr (.inr (.inl ⟨_, rfl⟩))
  · cases hs.symm.trans h
    exact .inr (.inr (.inr ⟨by simp [hin], _, rfl⟩))

/-- Every step answers a next state (60_exceptions.md R200, R212; 70_reset_and_hazards.md R236). -/
theorem exists_stepAt_next (depth : Nat) (s : State) : ∃ t, stepAt depth s = .next t := by
  obtain ⟨-, -, hs⟩ | ⟨w, rest, -, -, hs⟩ | ⟨ws, later, -, hs⟩ | ⟨ws, later, -, hs⟩ := stepAt_cases depth s
  · exact ⟨_, hs⟩
  · obtain ⟨t, ht, -⟩ := runWord_cases w { s with inbox := rest }
    exact ⟨t, hs.trans ht⟩
  · exact ⟨_, hs⟩
  · exact ⟨_, hs⟩

/-- What every step keeps holds of the state any number of steps answers. -/
theorem run_invariant {P : State → Prop} (hstep : ∀ s t, P s → step s = .next t → P t) (n : Nat) {s : State}
    (hs : P s) : ∃ t, Host.Core.run core n s = .next t ∧ P t := by
  induction n generalizing s with
  | zero => exact ⟨s, rfl, hs⟩
  | succ n ih =>
    obtain ⟨u, hu⟩ := exists_stepAt_next Config.rspDepth s
    obtain ⟨t, ht, hP⟩ := ih (hstep s u hs hu)
    have hcore : core.step s = .next u := hu
    exact ⟨t, by simp only [Host.Core.run, hcore, ht], hP⟩

/-! ### Beats -/

/-- The staged count goes on modulo 32 (10_state.md R32). -/
theorem absorb_cnt_toNat (b : List Byte) (s : State) :
    (absorb b s).cnt.toNat = (s.cnt.toNat + b.length) % 32 := by
  have hlt := s.cnt.isLt
  by_cases hfull : 32 ≤ s.cnt.toNat + b.length
  · obtain ⟨-, hcnt, -⟩ := absorb_full hfull
    rw [hcnt, List.length_drop]
    omega
  · obtain ⟨-, hcnt, -⟩ := absorb_short (Nat.lt_of_not_le hfull)
    rw [hcnt, Nat.mod_eq_of_lt (by omega)]

/-- A beat of at most 8 bytes that completes a block mixes just that block (42_ingest.md R137). -/
theorem absorb_lanes_of_full {b : List Byte} {s : State} (hb : b.length ≤ Config.beatBytes)
    (hfull : 32 ≤ s.cnt.toNat + b.length) :
    (absorb b s).lanes = blockMix (s.staged ++ b.take (32 - s.cnt.toNat)) s.lanes := by
  have hrest : (b.drop (32 - s.cnt.toNat)).length / 32 = 0 := by
    simp only [Config.beatBytes] at hb
    rw [List.length_drop]
    omega
  rw [(absorb_full hfull).1, hrest, mixBlocks_zero]

/-- A decoded command is well formed: its beat, if it has one, is no longer than BEAT_BYTES. -/
theorem wellFormed_of_decode {w : CmdWord} {i : Instr} (h : decode w = .cmd i) : i.WellFormed := by
  cases i with
  | ingest b =>
    simp only [decode] at h
    -- only the INGEST branch answers a beat, past the check of LEN; the last branch is RDREG's or its cause
    split_ifs at h with _ _ _ hlen _ _ hop <;> try cases h
    · simpa [hop] using hlen
    · split at h <;> cases h
  | _ => trivial

end Sys2Proof.Machine
end

section
/-! SUPPORT. The invariant of 10_state.md section 7: it holds at reset, every operation keeps it, so every step
does, and it holds in every state reached from reset. -/

namespace Sys2Proof.Machine

theorem code_ne_zero (c : IllegalCause) : c.code ≠ 0 := by cases c <;> decide

theorem code_le_five (c : IllegalCause) : c.code.toNat ≤ 5 := by cases c <;> decide

/-! ### Every operation keeps the invariant -/

section
variable {depth : Nat} {s : State}

theorem State.Inv.with_inbox (h : s.Inv depth) (events : List HostEvent) :
    State.Inv depth { s with inbox := events } :=
  ⟨h.cnt_eq, h.rq_le, h.ecause_zero, h.ecause_le⟩

theorem State.Inv.initState (h : s.Inv depth) (seed : Word) : (initState seed s).Inv depth :=
  ⟨by simp, by simpa using h.rq_le, by simpa using h.ecause_zero, by simpa using h.ecause_le⟩

/-- 32 divides 2^64, so the staged count and the total length go on together even where the total wraps. -/
theorem State.Inv.absorb (h : s.Inv depth) (b : List Byte) : (absorb b s).Inv depth where
  cnt_eq := by
    have hcnt := h.cnt_eq
    rw [absorb_cnt_toNat, absorb_tot, BitVec.toNat_add, BitVec.toNat_ofNat]
    omega
  rq_le := by simpa using h.rq_le
  ecause_zero := by simpa using h.ecause_zero
  ecause_le := by simpa using h.ecause_le

theorem State.Inv.respond (h : s.Inv depth) (hroom : s.rq.length < depth) (v : Word) : (respond v s).Inv depth :=
  ⟨by simpa using h.cnt_eq, by simpa using hroom, by simpa using h.ecause_zero, by simpa using h.ecause_le⟩

theorem State.Inv.raiseIllegal (h : s.Inv depth) (c : IllegalCause) : (raiseIllegal c s).Inv depth := by
  refine ⟨by simpa using h.cnt_eq, by simpa using h.rq_le, ?_, ?_⟩ <;> cases herr : s.err
  · simpa [herr] using code_ne_zero c
  · simpa [herr] using h.ecause_zero
  · simpa [herr] using code_le_five c
  · simpa [herr] using h.ecause_le

theorem State.Inv.takeResponse (h : s.Inv depth) : (takeResponse s).Inv depth where
  cnt_eq := by simpa using h.cnt_eq
  rq_le := by
    have hrq := h.rq_le
    rw [takeResponse_rq, List.length_tail]
    omega
  ecause_zero := by simpa using h.ecause_zero
  ecause_le := by simpa using h.ecause_le

theorem resetCore_inv (depth : Nat) (s : State) : (resetCore s).Inv depth :=
  ⟨by simp, by simp, by simp, by simp⟩

theorem State.Inv.exec (h : s.Inv depth) (hroom : s.rq.length < depth) {i : Instr} {t : State}
    (hexec : exec i s = .next t) : t.Inv depth := by
  obtain ⟨-, rfl⟩ | ⟨seed, -, rfl⟩ | ⟨b, -, rfl⟩ | ⟨-, rfl⟩ | ⟨r, -, rfl⟩ := exec_next hexec
  · exact h
  · exact h.initState seed
  · exact h.absorb b
  · exact h.respond hroom _
  · exact h.respond hroom _

theorem State.Inv.runWord (h : s.Inv depth) (hroom : s.rq.length < depth) {w : CmdWord} {t : State}
    (hrun : runWord w s = .next t) : t.Inv depth := by
  obtain ⟨i, -, hexec⟩ | ⟨c, -, rfl⟩ := runWord_next hrun
  · exact h.exec hroom hexec
  · exact h.raiseIllegal c

end

/-! ### The three statements about it -/

/-- Settles O49: each thing a step can do keeps the invariant, and a command runs only while the queue has room. -/
theorem everyStepKeepsTheInvariant : Obligations.EveryStepKeepsTheInvariant := by
  intro depth s t h hstep
  obtain rfl | ⟨w, rest, hroom, -, hrun⟩ | ⟨rest, rfl⟩ | ⟨-, rest, rfl⟩ := stepAt_next hstep
  · exact h
  · exact (h.with_inbox rest).runWord hroom hrun
  · exact (h.with_inbox rest).takeResponse
  · exact resetCore_inv depth _

/-- Settles O48, field by field. -/
theorem resetMeetsTheInvariant : Obligations.ResetMeetsTheInvariant := fun _ =>
  ⟨rfl, Nat.zero_le _, by decide, by decide⟩

/-- Settles O50: the invariant holds at reset, whatever events the host has to come, and every step keeps it. -/
theorem stagedCountIsTotalModulo32 : Obligations.StagedCountIsTotalModulo32 := by
  intro events n
  obtain ⟨t, hrun, hinv⟩ := run_invariant (P := State.Inv Config.rspDepth) (everyStepKeepsTheInvariant _) n
    ((resetMeetsTheInvariant Config.rspDepth).with_inbox events)
  exact ⟨t, hrun, hinv.cnt_eq, t.cnt.isLt⟩

end Sys2Proof.Machine
end

section
/-! SUPPORT. Noninterference of the unspecified staging bytes (10_state.md R21; U8): what is read of two states that
differ only there is the same, and every operation leaves two states that differ only there. -/

namespace Sys2Proof.Machine

/-! ### What the core reads agrees -/

theorem SameHash.long_eq {s t : State} (h : SameHash s t) : s.long = t.long := by
  simp only [State.long, h.tot_eq]

theorem SameHash.finalize_eq {s t : State} (h : SameHash s t) : finalize s = finalize t := by
  simp only [finalize, h.long_eq, h.lanes_eq, h.tot_eq, h.staged_eq]

theorem SameUpToUnspecified.readReg_eq {s t : State} (h : SameUpToUnspecified s t) (r : RegSel) :
    readReg s r = readReg t r := by
  cases r with
  | status => simp only [readReg, State.status, h.hash.long_eq, h.hash.cnt_eq, h.err_eq, h.ecause_eq]
  | total => exact h.hash.tot_eq
  | _ => simp only [readReg, h.hash.lanes_eq]

/-! ### Every operation keeps the agreement -/

/-- Both states take the same branch of `absorb`, and each branch is told through the staged bytes alone. -/
theorem SameHash.absorb {s t : State} (h : SameHash s t) (b : List Byte) : SameHash (absorb b s) (absorb b t) := by
  have hcnt : (Machine.absorb b s).cnt = (Machine.absorb b t).cnt :=
    BitVec.eq_of_toNat_eq (by rw [absorb_cnt_toNat, absorb_cnt_toNat, h.cnt_eq])
  have htot : (Machine.absorb b s).tot = (Machine.absorb b t).tot := by rw [absorb_tot, absorb_tot, h.tot_eq]
  by_cases hfull : 32 ≤ s.cnt.toNat + b.length
  · obtain ⟨hl, -, hs⟩ := absorb_full hfull
    obtain ⟨hl', -, hs'⟩ := absorb_full (h.cnt_eq ▸ hfull)
    exact ⟨by rw [hl, hl', h.cnt_eq, h.lanes_eq, h.staged_eq], hcnt, htot, by rw [hs, hs', h.cnt_eq]⟩
  · have hshort := Nat.lt_of_not_le hfull
    obtain ⟨hl, -, hs⟩ := absorb_short hshort
    obtain ⟨hl', -, hs'⟩ := absorb_short (h.cnt_eq ▸ hshort)
    exact ⟨by rw [hl, hl', h.lanes_eq], hcnt, htot, by rw [hs, hs', h.staged_eq]⟩

section
variable {s t : State}

theorem SameUpToUnspecified.with_inbox (h : SameUpToUnspecified s t) (events : List HostEvent) :
    SameUpToUnspecified { s with inbox := events } { t with inbox := events } :=
  ⟨⟨h.hash.lanes_eq, h.hash.cnt_eq, h.hash.tot_eq, h.hash.staged_eq⟩, h.err_eq, h.ecause_eq, h.rq_eq, rfl, h.rsp_eq⟩

theorem SameUpToUnspecified.initState (h : SameUpToUnspecified s t) (seed : Word) :
    SameUpToUnspecified (initState seed s) (initState seed t) :=
  ⟨⟨by simp, by simp, by simp, by simp⟩, h.err_eq, h.ecause_eq, h.rq_eq, h.inbox_eq, h.rsp_eq⟩

theorem SameUpToUnspecified.absorb (h : SameUpToUnspecified s t) (b : List Byte) :
    SameUpToUnspecified (absorb b s) (absorb b t) :=
  ⟨h.hash.absorb b, by simpa using h.err_eq, by simpa using h.ecause_eq, by simpa using h.rq_eq,
    by simpa using h.inbox_eq, by simpa using h.rsp_eq⟩

theorem SameUpToUnspecified.respond (h : SameUpToUnspecified s t) {v w : Word} (hv : v = w) :
    SameUpToUnspecified (respond v s) (respond w t) :=
  ⟨⟨h.hash.lanes_eq, h.hash.cnt_eq, h.hash.tot_eq, h.hash.staged_eq⟩, h.err_eq, h.ecause_eq,
    by simp [h.rq_eq, hv], h.inbox_eq, h.rsp_eq⟩

theorem SameUpToUnspecified.raiseIllegal (h : SameUpToUnspecified s t) (c : IllegalCause) :
    SameUpToUnspecified (raiseIllegal c s) (raiseIllegal c t) :=
  ⟨⟨h.hash.lanes_eq, h.hash.cnt_eq, h.hash.tot_eq, h.hash.staged_eq⟩, by simp,
    by simp [h.err_eq, h.ecause_eq], h.rq_eq, h.inbox_eq, h.rsp_eq⟩

theorem SameUpToUnspecified.takeResponse (h : SameUpToUnspecified s t) :
    SameUpToUnspecified (takeResponse s) (takeResponse t) := by
  cases hs : s.rq with
  | nil => rwa [takeResponse_nil s hs, takeResponse_nil t (h.rq_eq ▸ hs)]
  | cons v q =>
    rw [takeResponse_cons s hs, takeResponse_cons t (h.rq_eq ▸ hs)]
    exact ⟨⟨h.hash.lanes_eq, h.hash.cnt_eq, h.hash.tot_eq, h.hash.staged_eq⟩, h.err_eq, h.ecause_eq, rfl,
      h.inbox_eq, by simp [h.rsp_eq]⟩

theorem SameUpToUnspecified.resetCore (h : SameUpToUnspecified s t) :
    SameUpToUnspecified (resetCore s) (resetCore t) :=
  ⟨⟨by simp, by simp, by simp, by simp⟩, by simp, by simp, by simp, by simpa using h.inbox_eq,
    by simpa using h.rsp_eq⟩

/-! ### Commands, words and steps -/

theorem SameUpToUnspecified.exec (h : SameUpToUnspecified s t) (i : Instr) : SameNext (exec i s) (exec i t) := by
  cases i with
  | nop => exact ⟨_, _, rfl, rfl, h⟩
  | init seed => exact ⟨_, _, rfl, rfl, h.initState seed⟩
  | ingest b => exact ⟨_, _, rfl, rfl, h.absorb b⟩
  | final => exact ⟨_, _, exec_final s, exec_final t, h.respond h.hash.finalize_eq⟩
  | rdreg r => exact ⟨_, _, exec_rdreg s r, exec_rdreg t r, h.respond (h.readReg_eq r)⟩

theorem SameUpToUnspecified.runWord (h : SameUpToUnspecified s t) (w : CmdWord) :
    SameNext (runWord w s) (runWord w t) := by
  cases hw : decode w with
  | cmd i => simpa only [runWord_cmd hw] using h.exec i
  | illegal c => exact ⟨_, _, runWord_illegal hw s, runWord_illegal hw t, h.raiseIllegal c⟩

/-- The same event is next in both states: which one it is depends on the inbox and the queue's length alone. -/
theorem SameUpToUnspecified.stepAt (h : SameUpToUnspecified s t) (depth : Nat) :
    SameNext (stepAt depth s) (stepAt depth t) := by
  have hready : t.cmdReady depth = s.cmdReady depth := by simp only [State.cmdReady, h.rq_eq]
  simp only [Machine.stepAt, hready, ← h.inbox_eq]
  cases nextEvent (s.cmdReady depth) s.inbox with
  | none => exact ⟨_, _, rfl, rfl, h⟩
  | some next =>
    obtain ⟨e, rest⟩ := next
    have hrest := h.with_inbox rest
    cases e with
    | send w => exact hrest.runWord w
    | take => exact ⟨_, _, rfl, rfl, hrest.takeResponse⟩
    | rst => exact ⟨_, _, rfl, rfl, hrest.resetCore⟩

end

/-- Settles O51, which is the agreement over every depth at this hardware's. -/
theorem unspecifiedBytesAreNeverObserved : Obligations.UnspecifiedBytesAreNeverObserved :=
  fun _ _ h => h.stepAt Config.rspDepth

end Sys2Proof.Machine
end

section
/-! SUPPORT. What a run of words leaves: the bytes come since INIT, and the first illegal word's cause. -/

namespace Sys2Proof.Machine

/-! ### The hash state while fewer than 32 bytes came since INIT -/

/-- `n` bytes came since INIT `seed`: `tot` and `cnt` count them, and before the first block the lanes are INIT's. -/
structure CameSinceInit (seed : Word) (n : Nat) (s : State) : Prop where
  tot_eq : s.tot = BitVec.ofNat 64 n
  cnt_eq : s.cnt.toNat = n % 32
  lanes_eq : n < 32 → s.lanes = initLanes seed

section
variable {seed : Word} {n : Nat} {s : State}

theorem cameSinceInit_initState (seed : Word) (s : State) : CameSinceInit seed 0 (initState seed s) :=
  ⟨by simp, by simp, by simp⟩

theorem CameSinceInit.absorb (h : CameSinceInit seed n s) (b : List Byte) :
    CameSinceInit seed (n + b.length) (absorb b s) where
  tot_eq := by rw [absorb_tot, h.tot_eq, BitVec.ofNat_add]
  cnt_eq := by rw [absorb_cnt_toNat, h.cnt_eq, Nat.mod_add_mod]
  lanes_eq hn := by
    have hshort : s.cnt.toNat + b.length < 32 := by have := h.cnt_eq; omega
    rw [(absorb_short hshort).1, h.lanes_eq (by omega)]

theorem CameSinceInit.respond (h : CameSinceInit seed n s) (v : Word) : CameSinceInit seed n (respond v s) :=
  ⟨h.tot_eq, h.cnt_eq, h.lanes_eq⟩

theorem CameSinceInit.raiseIllegal (h : CameSinceInit seed n s) (c : IllegalCause) :
    CameSinceInit seed n (raiseIllegal c s) :=
  ⟨h.tot_eq, h.cnt_eq, h.lanes_eq⟩

/-- A word that is no INIT adds its beat to the count. -/
theorem CameSinceInit.runWord (h : CameSinceInit seed n s) {w : CmdWord} {t : State} (hw : isInit w = false)
    (hrun : runWord w s = .next t) : CameSinceInit seed (n + (beatOfWord w).length) t := by
  obtain ⟨i, hdec, hexec⟩ | ⟨c, hdec, rfl⟩ := runWord_next hrun
  · obtain ⟨rfl, rfl⟩ | ⟨seed', rfl, rfl⟩ | ⟨b, rfl, rfl⟩ | ⟨rfl, rfl⟩ | ⟨r, rfl, rfl⟩ := exec_next hexec
    · simpa [beatOfWord, hdec] using h
    · simp [isInit, hdec] at hw
    · simpa [beatOfWord, hdec] using h.absorb b
    · simpa [beatOfWord, hdec] using h.respond _
    · simpa [beatOfWord, hdec] using h.respond _
  · simpa [beatOfWord, hdec] using h.raiseIllegal c

end

theorem decode_encode_init (seed : Word) : decode (encode (.init seed)) = .cmd (.init seed) := by
  simp [encode, decode]

/-- Settles O25: INIT starts the count of bytes, and every later word adds its beat to it. -/
theorem shortStreamKeepsTheSeedLanes : Obligations.ShortStreamKeepsTheSeedLanes := by
  intro seed ws s hws hlen
  obtain ⟨t, hrun, hcame⟩ := runWords_invariant
    (P := fun before t => CameSinceInit seed (before.flatMap beatOfWord).length t)
    (cameSinceInit_initState seed s) (ws := ws) fun before w hw t u h hrun => by
      simpa using h.runWord (hws w hw) hrun
  have hinit : Machine.runWord (encode (.init seed)) s = .next (initState seed s) :=
    runWord_cmd (decode_encode_init seed) s
  have htot : t.tot.toNat = (ws.flatMap beatOfWord).length := by
    rw [hcame.tot_eq, BitVec.toNat_ofNat, Nat.mod_eq_of_lt hlen]
  refine ⟨t, by simp only [runWords, hinit, hrun], by rw [htot], fun ht => ?_⟩
  have hlanes := hcame.lanes_eq (htot ▸ ht)
  exact ⟨hlanes, by rw [hlanes]; rfl⟩

/-! ### The error state -/

/-- The cause of an illegal word. -/
def illegalCause? (w : CmdWord) : Option IllegalCause :=
  match decode w with
  | .illegal c => some c
  | .cmd _ => none

theorem illegalCause?_eq_some {w : CmdWord} {c : IllegalCause} :
    illegalCause? w = some c ↔ decode w = .illegal c := by
  cases h : decode w <;> simp [illegalCause?, h]

/-- ERR and ECAUSE record `c?`, the cause of the first illegal word, if there was one. -/
structure Records (c? : Option IllegalCause) (s : State) : Prop where
  err_eq : s.err = c?.isSome
  ecause_eq : s.ecause = c?.elim 0 IllegalCause.code

/-- A word's cause is recorded only where none is. -/
theorem Records.runWord {c? : Option IllegalCause} {s t : State} {w : CmdWord} (h : Records c? s)
    (hrun : runWord w s = .next t) : Records (c?.or (illegalCause? w)) t := by
  obtain ⟨i, hdec, hexec⟩ | ⟨c, hdec, rfl⟩ := runWord_next hrun
  · obtain ⟨herr, hecause⟩ := exec_error hexec
    simpa [illegalCause?, hdec] using Records.mk (herr.trans h.err_eq) (hecause.trans h.ecause_eq)
  · cases c? with
    | none => exact ⟨by simp [illegalCause?, hdec], by simp [illegalCause?, hdec, h.err_eq]⟩
    | some d => exact ⟨by simp, by simpa [h.err_eq] using h.ecause_eq⟩

/-- Settles O36: every word keeps ERR and ECAUSE a record of the first illegal one before it. -/
theorem errRecordsTheFirstIllegalWord : Obligations.ErrRecordsTheFirstIllegalWord := by
  intro ws
  obtain ⟨t, hrun, hrec⟩ := runWords_invariant (P := fun before t => Records (before.findSome? illegalCause?) t)
    (s := State.reset) (ws := ws) ⟨rfl, rfl⟩ fun before w _ t u h hrun => by
      simpa [List.findSome?_append] using h.runWord hrun
  refine ⟨t, hrun, ?_, ?_⟩
  · simp only [hrec.err_eq, List.isSome_findSome?, List.any_eq_true, Option.isSome_iff_exists, illegalCause?_eq_some]
  · rw [hrec.ecause_eq]
    change _ = match ws.findSome? illegalCause? with | some c => c.code | none => 0
    cases ws.findSome? illegalCause? <;> rfl

end Sys2Proof.Machine
end

section
/-! SUPPORT. The access summary of 10_state.md R31, over every command and over every step. -/

namespace Sys2Proof.Machine

/-- Settles O46, command by command: each is one operation on the state, whose field lemmas say what it leaves. -/
theorem commandsWriteOnlyTheirState : Obligations.CommandsWriteOnlyTheirState := by
  intro i s t h
  obtain ⟨rfl, rfl⟩ | ⟨seed, rfl, rfl⟩ | ⟨b, rfl, rfl⟩ | ⟨rfl, rfl⟩ | ⟨r, rfl, rfl⟩ := exec_next h <;> simp

/-- A command that changes the lanes is INIT, or an INGEST whose beat completes a block. -/
theorem exec_lanes_changed {i : Instr} {s t : State} (h : exec i s = .next t) (hne : t.lanes ≠ s.lanes) :
    (∃ seed, i = .init seed ∧ t.lanes = initLanes seed) ∨
    (∃ b, i = .ingest b ∧ 32 ≤ s.cnt.toNat + b.length ∧ t = absorb b s) := by
  obtain ⟨-, rfl⟩ | ⟨seed, rfl, rfl⟩ | ⟨b, rfl, rfl⟩ | ⟨-, rfl⟩ | ⟨r, -, rfl⟩ := exec_next h
  · exact absurd rfl hne
  · exact .inl ⟨seed, rfl, rfl⟩
  · exact .inr ⟨b, rfl, Nat.le_of_not_lt fun hshort => hne (absorb_short hshort).1, rfl⟩
  · exact absurd rfl hne
  · exact absurd rfl hne

/-- Settles O47: taking a response and recording an illegal word leave the lanes, so the step was a reset or one of the
two commands that write them. -/
theorem onlyInitBlockMixAndResetWriteLanes : Obligations.OnlyInitBlockMixAndResetWriteLanes := by
  intro s t hstep hne
  obtain rfl | ⟨w, rest, hroom, hin, hrun⟩ | ⟨rest, rfl⟩ | ⟨hrst, rest, rfl⟩ := stepAt_next hstep
  · exact absurd rfl hne
  · refine .inr ⟨w, rest, hin, hroom, ?_⟩
    obtain ⟨i, hdec, hexec⟩ | ⟨c, -, rfl⟩ := runWord_next hrun
    · obtain ⟨seed, rfl, hlanes⟩ | ⟨b, rfl, hfull, rfl⟩ := exec_lanes_changed hexec hne
      · exact .inl ⟨seed, hdec, hlanes⟩
      · exact .inr ⟨b, hdec, hfull, absorb_lanes_of_full (wellFormed_of_decode hdec) hfull⟩
    · exact absurd rfl hne
  · exact absurd (takeResponse_lanes _) hne
  · exact .inl ⟨hrst, resetCore_lanes _⟩

end Sys2Proof.Machine
end

section
/-! SUPPORT. The host's taking a response (10_state.md R26) and the table of reset values (R34). -/

namespace Sys2Proof.Machine

/-- Settles O41: a take event is next whether or not the queue has room. -/
theorem hostTakesTheHeadResponse : Obligations.HostTakesTheHeadResponse := by
  intro depth s later hin
  refine ⟨fun v q hrq => ?_, fun hrq => ?_⟩
  · exact (stepAt_of_take hin).trans (congrArg _ (takeResponse_cons _ hrq))
  · exact (stepAt_of_take hin).trans (congrArg _ (takeResponse_nil _ hrq))

/-- Settles O43: the lanes are those of `initialize(0)`, and the other values are the table's own. -/
theorem resetValues : Obligations.ResetValues := by
  unfold Obligations.ResetValues
  refine ⟨rfl, ?_, rfl, ?_, rfl, rfl, ?_, rfl, rfl, rfl, rfl, rfl, ?_⟩
  · simp only [reset_lanes, initLanes]
  · simp only [reset_lanes, initLanes]
  · simp only [reset_lanes, initLanes]
  · decide

end Sys2Proof.Machine
end

section
/-! SUPPORT. RDREG and STATUS: the bits of STATUS, and the words that decode to a RDREG or to one of its two causes. -/

namespace Sys2Proof.Machine

/-! ### The bits of STATUS -/

/-- The four fields of STATUS stand side by side, with bit 7 between ERR and ECAUSE (10_state.md R28). -/
theorem status_getLsbD (s : State) (i : Nat) :
    s.status.getLsbD i =
      if i < 5 then s.cnt.getLsbD i
      else if i = 5 then s.long
      else if i = 6 then s.err
      else if 8 ≤ i then s.ecause.getLsbD (i - 8)
      else false := by
  have hcnt (h : 5 ≤ i) : s.cnt.getLsbD i = false := BitVec.getLsbD_of_ge _ _ h
  have hcause (h : 11 ≤ i) : s.ecause.getLsbD (i - 8) = false := BitVec.getLsbD_of_ge _ _ (by omega)
  simp only [State.status, BitVec.getLsbD_or, BitVec.getLsbD_shiftLeft, BitVec.getLsbD_setWidth,
    BitVec.getLsbD_ofBool]
  grind

/-- Settles O33: each field is read off the bits of STATUS. -/
theorem statusFieldLayout : Obligations.StatusFieldLayout := by
  refine ⟨fun s => ⟨?_, status_getLsbD s 5, status_getLsbD s 6, status_getLsbD s 7, ?_, fun i hi => ?_,
    exec_rdreg s .status⟩, by decide⟩
  · refine BitVec.eq_of_getLsbD_eq fun i hi => ?_
    simp [status_getLsbD, hi]
  · refine BitVec.eq_of_getLsbD_eq fun i hi => ?_
    simp [status_getLsbD, hi, show ¬ 8 + i < 5 by omega, show 8 + i ≠ 5 by omega, show 8 + i ≠ 6 by omega]
  · have hcause : s.ecause.getLsbD (i - 8) = false := BitVec.getLsbD_of_ge _ _ (by omega)
    simp [status_getLsbD, hcause, show ¬ i < 5 by omega, show i ≠ 5 by omega, show i ≠ 6 by omega]

/-! ### The words of RDREG -/

/-- A nonzero RSV comes before every check but that of OP (30_encoding.md R65). -/
theorem decode_wordOf_reservedField (x : Word) {rsv : BitVec 8} (hrsv : rsv ≠ 0) (a : BitVec 4) {op : BitVec 4}
    (hop : op.toNat < 5) : decode (wordOf x rsv a op) = .illegal .reservedField := by
  simp only [decode, fieldOp_wordOf, fieldRsv_wordOf, if_neg (Nat.not_le_of_lt hop), if_pos hrsv]

theorem decode_wordOf_rdreg (x : Word) (r : RegSel) : decode (wordOf x 0 r.code 4) = .cmd (.rdreg r) := by
  simp [decode]

/-- Selectors 6 to 15 are reserved (10_state.md R29). -/
theorem ofCode_eq_none {a : BitVec 4} (h : 6 ≤ a.toNat) : RegSel.ofCode a = none := by
  revert a
  decide

theorem decode_wordOf_badSel (x : Word) {a : BitVec 4} (h : 6 ≤ a.toNat) :
    decode (wordOf x 0 a 4) = .illegal .badSel := by
  simp [decode, ofCode_eq_none h]

/-- Settles O32: every selector of a register decodes to its RDREG, and the register it names is responded. -/
theorem rdregRespondsTheRegister : Obligations.RdregRespondsTheRegister := by
  intro x s
  refine ⟨fun r => ?_, decode_wordOf_rdreg x .status, decode_wordOf_rdreg x .total, decode_wordOf_rdreg x .lane0,
    decode_wordOf_rdreg x .lane1, decode_wordOf_rdreg x .lane2, decode_wordOf_rdreg x .lane3,
    fun a ha => decode_wordOf_badSel x ha, fun a rsv hrsv => decode_wordOf_reservedField x hrsv a (by decide)⟩
  cases r <;> rfl

end Sys2Proof.Machine
end

section
/-! SUPPORT. The beat of an INGEST: the words that decode to one, and its bytes read back as a little-endian word
(20_memory.md R42 to R44). -/

namespace Sys2Proof.Machine

/-- An INGEST with LEN at most BEAT_BYTES carries the first LEN bytes of its payload (30_encoding.md R65). -/
theorem decode_wordOf_ingest (x : Word) {a : BitVec 4} (ha : a.toNat ≤ Config.beatBytes) :
    decode (wordOf x 0 a 2) = .cmd (.ingest (beatOf x a.toNat)) := by
  simp [decode, Nat.not_lt_of_le ha]

/-- Byte `k` of the beat of LEN `n` is payload byte `k`, for `k < n`. -/
theorem beatOf_getD (x : Word) (n k : Nat) :
    (beatOf x n).getD k 0 = if k < n then x.extractLsb' (8 * k) 8 else 0 := by
  by_cases hk : k < n <;> simp [beatOf, List.getD_eq_getElem?_getD, hk]

/-- The beat of LEN `n`, read as a little-endian word, is the payload's low `8 * n` bits. -/
theorem leBits_beatOf_getLsbD (x : Word) (n i : Nat) :
    (leBits 64 (beatOf x n)).getLsbD i = (decide (i < 8 * n) && x.getLsbD i) := by
  rw [leBits_getLsbD, beatOf_getD]
  by_cases hi : i < 64
  · by_cases hn : i < 8 * n
    · simp [hi, hn, show i / 8 < n by omega, Nat.mod_lt, Nat.div_add_mod]
    · simp [hn, show ¬ i / 8 < n by omega]
  · simp [hi, BitVec.getLsbD_of_ge x i (Nat.le_of_not_lt hi)]

theorem LE64_beatOf_eight (x : Word) : LE64 (beatOf x 8) 0 = x := by
  have htake : ((beatOf x 8).drop 0).take 8 = beatOf x 8 := List.take_of_length_le (by simp)
  rw [LE64, htake]
  exact BitVec.eq_of_getLsbD_eq fun i hi => by
    rw [leBits_beatOf_getLsbD, decide_eq_true hi, Bool.true_and]

/-- Settles O12: the 8 payload bytes read back to the payload, and LEN 8 is one the decoder allows. -/
theorem payloadBytesReadBackTheWord : Obligations.PayloadBytesReadBackTheWord := fun v =>
  ⟨beatOf_length v 8, LE64_beatOf_eight v, decode_wordOf_ingest v (by decide)⟩

end Sys2Proof.Machine
end

section
/-! SUPPORT. The order of responses (20_memory.md R49; 30_encoding.md R70): what a command, and then a step, does to the
responses the host has accepted followed by those still queued. -/

namespace Sys2Proof.Machine

/-- FINAL and RDREG append their response at the end; no other command touches the responses. -/
theorem exec_responses {i : Instr} {s t : State} (h : exec i s = .next t) :
    t.rsp ++ t.rq = s.rsp ++ s.rq ∨
    (i = .final ∧ t.rsp ++ t.rq = s.rsp ++ s.rq ++ [finalize s]) ∨
    (∃ r, i = .rdreg r ∧ t.rsp ++ t.rq = s.rsp ++ s.rq ++ [readReg s r]) := by
  obtain ⟨-, rfl⟩ | ⟨seed, -, rfl⟩ | ⟨b, -, rfl⟩ | ⟨hi, rfl⟩ | ⟨r, hi, rfl⟩ := exec_next h
  · exact .inl rfl
  · exact .inl (by simp)
  · exact .inl (by simp)
  · exact .inr (.inl ⟨hi, by simp⟩)
  · exact .inr (.inr ⟨r, hi, by simp⟩)

/-- Settles O45: a response taken only moves from the queue to the host's record, and only an accepted FINAL or RDREG
adds one. -/
theorem responsesComeInCommandOrder : Obligations.ResponsesComeInCommandOrder := by
  intro s t hrst hstep
  obtain rfl | ⟨w, later, hroom, hin, hrun⟩ | ⟨rest, rfl⟩ | ⟨hmem, -⟩ := stepAt_next hstep
  · exact .inl rfl
  · obtain ⟨i, hdec, hexec⟩ | ⟨c, -, rfl⟩ := runWord_next hrun
    · obtain hsame | ⟨rfl, hfinal⟩ | ⟨r, rfl, hreg⟩ := exec_responses hexec
      · exact .inl hsame
      · exact .inr ⟨w, later, hin, hroom, .inl ⟨hdec, by simpa using hfinal⟩⟩
      · exact .inr ⟨w, later, hin, hroom, .inr ⟨r, hdec, by simpa using hreg⟩⟩
    · exact .inl rfl
  · exact .inl (takeResponse_rsp_append_rq _)
  · exact absurd hmem hrst

end Sys2Proof.Machine
end

section
/-! SUPPORT. A word is its four fields (30_encoding.md R61): its bits, its equality and its masks told through them. -/

namespace Sys2Proof

section
variable {v w : CmdWord}

theorem getLsbD_eq_fieldOp (w : CmdWord) {n : Nat} (hn : n < 4) : w.getLsbD n = (fieldOp w).getLsbD n := by
  simp [fieldOp, hn]

theorem getLsbD_eq_fieldA (w : CmdWord) {n : Nat} (hn : n < 4) : w.getLsbD (4 + n) = (fieldA w).getLsbD n := by
  simp [fieldA, hn]

theorem getLsbD_eq_fieldRsv (w : CmdWord) {n : Nat} (hn : n < 8) : w.getLsbD (8 + n) = (fieldRsv w).getLsbD n := by
  simp [fieldRsv, hn]

theorem getLsbD_eq_fieldPayload (w : CmdWord) (n : Nat) : w.getLsbD (16 + n) = (fieldPayload w).getLsbD n := by
  by_cases hn : n < 64
  · simp [fieldPayload, hn]
  · rw [BitVec.getLsbD_of_ge _ _ (by omega), BitVec.getLsbD_of_ge _ _ (by omega)]

/-- The low 16 bits are OP, A and RSV. -/
theorem low_bits_eq_iff : (∀ n, n < 16 → v.getLsbD n = w.getLsbD n) ↔
    fieldOp v = fieldOp w ∧ fieldA v = fieldA w ∧ fieldRsv v = fieldRsv w := by
  constructor
  · intro h
    refine ⟨BitVec.eq_of_getLsbD_eq fun n hn => ?_, BitVec.eq_of_getLsbD_eq fun n hn => ?_,
      BitVec.eq_of_getLsbD_eq fun n hn => ?_⟩
    · rw [← getLsbD_eq_fieldOp v hn, ← getLsbD_eq_fieldOp w hn, h n (by omega)]
    · rw [← getLsbD_eq_fieldA v hn, ← getLsbD_eq_fieldA w hn, h (4 + n) (by omega)]
    · rw [← getLsbD_eq_fieldRsv v hn, ← getLsbD_eq_fieldRsv w hn, h (8 + n) (by omega)]
  · rintro ⟨hop, ha, hrsv⟩ n hn
    by_cases h8 : 8 ≤ n
    · obtain ⟨k, rfl⟩ := Nat.exists_eq_add_of_le h8
      rw [getLsbD_eq_fieldRsv v (by omega), getLsbD_eq_fieldRsv w (by omega), hrsv]
    · by_cases h4 : 4 ≤ n
      · obtain ⟨k, rfl⟩ := Nat.exists_eq_add_of_le h4
        rw [getLsbD_eq_fieldA v (by omega), getLsbD_eq_fieldA w (by omega), ha]
      · rw [getLsbD_eq_fieldOp v (by omega), getLsbD_eq_fieldOp w (by omega), hop]

/-- A word is its four fields. -/
theorem word_eq_iff : v = w ↔
    fieldOp v = fieldOp w ∧ fieldA v = fieldA w ∧ fieldRsv v = fieldRsv w ∧ fieldPayload v = fieldPayload w := by
  refine ⟨by rintro rfl; simp, fun ⟨hop, ha, hrsv, hpay⟩ => BitVec.eq_of_getLsbD_eq fun n _ => ?_⟩
  by_cases hn : n < 16
  · exact low_bits_eq_iff.2 ⟨hop, ha, hrsv⟩ n hn
  · obtain ⟨k, rfl⟩ := Nat.exists_eq_add_of_le (Nat.le_of_not_lt hn)
    rw [getLsbD_eq_fieldPayload, getLsbD_eq_fieldPayload, hpay]

theorem fieldOp_eq_iff {o : BitVec 4} : fieldOp w = o ↔ w.toNat % 16 = o.toNat := by
  rw [← fieldOp_toNat, BitVec.toNat_inj]

end

/-! ### Masks -/

section
variable (v w : CmdWord)

@[simp] theorem fieldOp_and : fieldOp (v &&& w) = fieldOp v &&& fieldOp w := BitVec.extractLsb'_and
@[simp] theorem fieldA_and : fieldA (v &&& w) = fieldA v &&& fieldA w := BitVec.extractLsb'_and
@[simp] theorem fieldRsv_and : fieldRsv (v &&& w) = fieldRsv v &&& fieldRsv w := BitVec.extractLsb'_and
@[simp] theorem fieldPayload_and : fieldPayload (v &&& w) = fieldPayload v &&& fieldPayload w :=
  BitVec.extractLsb'_and

/-- The word has a row's match under the row's mask, which is `m` on A and 0 on the payload (30_encoding.md R64). -/
theorem and_rowMask_eq_iff (m o : BitVec 4) :
    w &&& wordOf 0 0xFF m 0xF = wordOf 0 0 0 o ↔ fieldOp w = o ∧ fieldA w &&& m = 0 ∧ fieldRsv w = 0 := by
  have hop : fieldOp w &&& 0xF = fieldOp w := BitVec.and_allOnes
  have hrsv : fieldRsv w &&& 0xFF = fieldRsv w := BitVec.and_allOnes
  have hpay : fieldPayload w &&& 0 = 0 := BitVec.and_zero
  simp only [word_eq_iff, fieldOp_and, fieldA_and, fieldRsv_and, fieldPayload_and, fieldOp_wordOf, fieldA_wordOf,
    fieldRsv_wordOf, fieldPayload_wordOf, hop, hrsv, hpay, and_true]

theorem and_maskWithA_eq_iff (o : BitVec 4) :
    w &&& 0xFFFF = wordOf 0 0 0 o ↔ fieldOp w = o ∧ fieldA w = 0 ∧ fieldRsv w = 0 := by
  have ha : fieldA w &&& 0xF = fieldA w := BitVec.and_allOnes
  exact (and_rowMask_eq_iff w 0xF o).trans (by rw [ha])

theorem and_maskWithoutA_eq_iff (o : BitVec 4) :
    w &&& 0xFF0F = wordOf 0 0 0 o ↔ fieldOp w = o ∧ fieldRsv w = 0 := by
  have ha : fieldA w &&& 0 = 0 := BitVec.and_zero
  exact (and_rowMask_eq_iff w 0 o).trans (by rw [ha, eq_self, true_and])

end

end Sys2Proof
end

section
/-! SUPPORT. The decoder: what it answers for each OP, which words decode to each command, and the canonical word of a
command (30_encoding.md R65, R66, R71). -/

namespace Sys2Proof.Machine

/-! ### The decoder, opcode by opcode -/

section
variable {w : CmdWord}

theorem decode_of_op_nop (h : fieldOp w = 0) : decode w =
    if fieldRsv w ≠ 0 then .illegal .reservedField else if fieldA w ≠ 0 then .illegal .nonzeroA else .cmd .nop := by
  simp [decode, h]

theorem decode_of_op_init (h : fieldOp w = 1) : decode w =
    if fieldRsv w ≠ 0 then .illegal .reservedField
    else if fieldA w ≠ 0 then .illegal .nonzeroA else .cmd (.init (fieldPayload w)) := by
  simp [decode, h]

theorem decode_of_op_ingest (h : fieldOp w = 2) : decode w =
    if fieldRsv w ≠ 0 then .illegal .reservedField
    else if 8 < (fieldA w).toNat then .illegal .badLen
    else .cmd (.ingest (beatOf (fieldPayload w) (fieldA w).toNat)) := by
  simp [decode, h, Config.beatBytes]

theorem decode_of_op_final (h : fieldOp w = 3) : decode w =
    if fieldRsv w ≠ 0 then .illegal .reservedField else if fieldA w ≠ 0 then .illegal .nonzeroA else .cmd .final := by
  simp [decode, h]

theorem decode_of_op_rdreg (h : fieldOp w = 4) : decode w =
    if fieldRsv w ≠ 0 then .illegal .reservedField
    else (RegSel.ofCode (fieldA w)).elim (.illegal .badSel) fun r => .cmd (.rdreg r) := by
  cases hr : RegSel.ofCode (fieldA w) <;> simp [decode, h, hr]

theorem decode_of_op_reserved (h : 5 ≤ (fieldOp w).toNat) : decode w = .illegal .reservedOp := by
  simp [decode, h]

end

/-- OP is one of the five opcodes, or reserved. -/
theorem op_cases (o : BitVec 4) : o = 0 ∨ o = 1 ∨ o = 2 ∨ o = 3 ∨ o = 4 ∨ 5 ≤ o.toNat := by
  revert o
  decide

/-! ### Selectors -/

theorem ofCode_eq_some_iff {a : BitVec 4} {r : RegSel} : RegSel.ofCode a = some r ↔ a = r.code := by
  revert a
  cases r <;> decide

/-- The register a selector names, as a table (10_state.md R29). -/
theorem ofCode_eq_ite (a : BitVec 4) : RegSel.ofCode a =
    if 5 < a.toNat then none else some ([.status, .total, .lane0, .lane1, .lane2, .lane3].getD a.toNat .status) := by
  revert a
  decide

theorem exists_code_iff {a : BitVec 4} : (∃ r : RegSel, a = r.code) ↔ a.toNat ≤ 5 := by
  simp only [← ofCode_eq_some_iff, ofCode_eq_ite]
  split <;> simp <;> omega

/-! ### The words that read a command -/

/-- The word has the OP, and an A and operands, of the command (30_encoding.md R62, R65). -/
def Reads (w : CmdWord) : Instr → Prop
  | .nop => fieldOp w = 0 ∧ fieldA w = 0
  | .init seed => fieldOp w = 1 ∧ fieldA w = 0 ∧ fieldPayload w = seed
  | .ingest beat => fieldOp w = 2 ∧ (fieldA w).toNat ≤ 8 ∧ beatOf (fieldPayload w) (fieldA w).toNat = beat
  | .final => fieldOp w = 3 ∧ fieldA w = 0
  | .rdreg r => fieldOp w = 4 ∧ fieldA w = r.code

theorem reads_of_decode {w : CmdWord} {i : Instr} (h : decode w = .cmd i) : fieldRsv w = 0 ∧ Reads w i := by
  obtain hop | hop | hop | hop | hop | hop := op_cases (fieldOp w)
  · rw [decode_of_op_nop hop] at h
    split_ifs at h with hrsv ha
    cases h
    exact ⟨not_not.1 hrsv, hop, not_not.1 ha⟩
  · rw [decode_of_op_init hop] at h
    split_ifs at h with hrsv ha
    cases h
    exact ⟨not_not.1 hrsv, hop, not_not.1 ha, rfl⟩
  · rw [decode_of_op_ingest hop] at h
    split_ifs at h with hrsv hlen
    cases h
    exact ⟨not_not.1 hrsv, hop, Nat.le_of_not_lt hlen, rfl⟩
  · rw [decode_of_op_final hop] at h
    split_ifs at h with hrsv ha
    cases h
    exact ⟨not_not.1 hrsv, hop, not_not.1 ha⟩
  · rw [decode_of_op_rdreg hop] at h
    split_ifs at h with hrsv
    cases hr : RegSel.ofCode (fieldA w) with
    | none =>
      rw [hr] at h
      cases h
    | some r =>
      rw [hr] at h
      cases h
      exact ⟨not_not.1 hrsv, hop, ofCode_eq_some_iff.1 hr⟩
  · rw [decode_of_op_reserved hop] at h
    cases h

theorem decode_of_reads {w : CmdWord} {i : Instr} (hrsv : fieldRsv w = 0) (h : Reads w i) : decode w = .cmd i := by
  cases i with
  | nop =>
    obtain ⟨hop, ha⟩ := h
    simp [decode_of_op_nop hop, hrsv, ha]
  | init seed =>
    obtain ⟨hop, ha, hseed⟩ := h
    simp [decode_of_op_init hop, hrsv, ha, hseed]
  | ingest beat =>
    obtain ⟨hop, hlen, hbeat⟩ := h
    simp [decode_of_op_ingest hop, hrsv, Nat.not_lt_of_le hlen, hbeat]
  | final =>
    obtain ⟨hop, ha⟩ := h
    simp [decode_of_op_final hop, hrsv, ha]
  | rdreg r =>
    obtain ⟨hop, ha⟩ := h
    simp [decode_of_op_rdreg hop, hrsv, ha]

/-- The decoder's two directions at once: a command is decoded from just the words that read it with RSV 0. -/
theorem decode_eq_cmd_iff {w : CmdWord} {i : Instr} : decode w = .cmd i ↔ fieldRsv w = 0 ∧ Reads w i :=
  ⟨reads_of_decode, fun ⟨hrsv, h⟩ => decode_of_reads hrsv h⟩

/-! ### The round trip -/

/-- Byte `k` of a beat of at most 8 bytes is payload byte `k` of its canonical word. -/
theorem beatOf_leBits {b : List Byte} (hb : b.length ≤ Config.beatBytes) : beatOf (leBits 64 b) b.length = b := by
  simp only [Config.beatBytes] at hb
  refine List.ext_getElem (beatOf_length _ _) fun k _ hk => BitVec.eq_of_getLsbD_eq fun i hi => ?_
  have h64 : 8 * k + i < 64 := by omega
  have hdiv : (8 * k + i) / 8 = k := by omega
  have hmod : (8 * k + i) % 8 = i := by omega
  simp only [beatOf, List.getElem_map, List.getElem_range, BitVec.getLsbD_extractLsb', leBits_getLsbD, hdiv, hmod]
  simp [hi, hk, h64]

/-- The canonical word of a well-formed command has RSV 0 and reads the command. -/
theorem reads_encode {i : Instr} (h : i.WellFormed) : fieldRsv (encode i) = 0 ∧ Reads (encode i) i := by
  cases i with
  | ingest beat =>
    obtain ⟨hop, hrsv, hlen⟩ := Laws.EncodesItsFields.ingest beat h
    refine ⟨hrsv, hop, hlen.trans_le h, ?_⟩
    rw [hlen, encode, fieldPayload_wordOf, beatOf_leBits h]
  | _ => simp [encode, Reads]

/-- Settles O1: the canonical word reads its command, and the decoder answers the command a word reads. -/
theorem decodeOfEncodeIsTheCommand : Obligations.DecodeOfEncodeIsTheCommand := fun _ h =>
  decode_eq_cmd_iff.2 (reads_encode h)

/-! ### The canonical word of a decoded command -/

/-- Two words that read one command agree on OP and A. -/
theorem Reads.op_and_a_eq {v w : CmdWord} {i : Instr} (hv : Reads v i) (hw : Reads w i) :
    fieldOp v = fieldOp w ∧ fieldA v = fieldA w := by
  cases i with
  | init seed =>
    obtain ⟨hop, ha, -⟩ := hv
    obtain ⟨hop', ha', -⟩ := hw
    exact ⟨hop.trans hop'.symm, ha.trans ha'.symm⟩
  | ingest beat =>
    obtain ⟨hop, -, hbeat⟩ := hv
    obtain ⟨hop', -, hbeat'⟩ := hw
    have hlen := congrArg List.length (hbeat.trans hbeat'.symm)
    exact ⟨hop.trans hop'.symm, BitVec.eq_of_toNat_eq (by simpa using hlen)⟩
  | _ => exact ⟨hv.1.trans hw.1.symm, hv.2.trans hw.2.symm⟩

/-- Decoding and encoding again keeps OP, A and RSV, the low 16 bits. -/
theorem encode_low_bits {w : CmdWord} {i : Instr} (h : decode w = .cmd i) :
    ∀ n, n < 16 → (encode i).getLsbD n = w.getLsbD n := by
  obtain ⟨hrsv, hreads⟩ := reads_of_decode h
  obtain ⟨hrsv', hreads'⟩ := reads_encode (wellFormed_of_decode h)
  obtain ⟨hop, ha⟩ := hreads'.op_and_a_eq hreads
  exact low_bits_eq_iff.2 ⟨hop, ha, hrsv'.trans hrsv.symm⟩

/-- The seed of INIT is the whole payload. -/
theorem encode_eq_of_decode_init {w : CmdWord} {seed : Word} (h : decode w = .cmd (.init seed)) :
    encode (.init seed) = w := by
  obtain ⟨hop, ha, hrsv⟩ := low_bits_eq_iff.1 (encode_low_bits h)
  obtain ⟨-, -, -, hseed⟩ := reads_of_decode h
  exact word_eq_iff.2 ⟨hop, ha, hrsv, by rw [hseed, encode, fieldPayload_wordOf]⟩

/-- INGEST uses the payload bits of its beat, and its canonical word has the others 0. -/
theorem encode_payload_of_decode_ingest {w : CmdWord} {beat : List Byte} (h : decode w = .cmd (.ingest beat))
    (k : Nat) :
    (encode (.ingest beat)).getLsbD (16 + k) = (decide (k < 8 * beat.length) && w.getLsbD (16 + k)) := by
  obtain ⟨-, -, -, rfl⟩ := reads_of_decode h
  rw [getLsbD_eq_fieldPayload, getLsbD_eq_fieldPayload, encode, fieldPayload_wordOf, leBits_beatOf_getLsbD,
    beatOf_length]

/-- Settles O2: the low 16 bits are kept whatever the command, and the payload is told command by command. -/
theorem decodedCommandHasItsWordsUsedBits : Obligations.DecodedCommandHasItsWordsUsedBits := by
  intro w i h
  refine ⟨wellFormed_of_decode h, encode_low_bits h, ?_, ?_, ?_⟩
  · rintro seed rfl
    exact encode_eq_of_decode_init h
  · rintro beat rfl
    refine ⟨fun n hn => ?_, fun n hn => ?_⟩
    · obtain hlow | ⟨k, rfl⟩ := (Nat.lt_or_ge n 16).imp_right Nat.exists_eq_add_of_le
      · exact encode_low_bits h n hlow
      · rw [encode_payload_of_decode_ingest h, decide_eq_true (by omega), Bool.true_and]
    · obtain ⟨k, rfl⟩ := Nat.exists_eq_add_of_le (show 16 ≤ n by omega)
      rw [encode_payload_of_decode_ingest h, decide_eq_false (by omega), Bool.false_and]
  · intro hi n hn
    obtain ⟨k, rfl⟩ := Nat.exists_eq_add_of_le hn
    obtain rfl | rfl | ⟨r, rfl⟩ := hi <;> simp [getLsbD_eq_fieldPayload, encode]

/-! ### Which words decode to each command -/

section
variable {w : CmdWord}

theorem decode_eq_nop_iff : decode w = .cmd .nop ↔ fieldOp w = 0 ∧ fieldA w = 0 ∧ fieldRsv w = 0 := by
  rw [decode_eq_cmd_iff, Reads, and_comm, and_assoc]

theorem exists_decode_eq_init_iff :
    (∃ seed, decode w = .cmd (.init seed)) ↔ fieldOp w = 1 ∧ fieldA w = 0 ∧ fieldRsv w = 0 := by
  simp [decode_eq_cmd_iff, Reads, and_comm, and_assoc]

theorem exists_decode_eq_ingest_iff :
    (∃ beat, decode w = .cmd (.ingest beat)) ↔ fieldOp w = 2 ∧ fieldRsv w = 0 ∧ (fieldA w).toNat ≤ 8 := by
  simp [decode_eq_cmd_iff, Reads, and_left_comm, and_comm, and_assoc]

theorem decode_eq_final_iff : decode w = .cmd .final ↔ fieldOp w = 3 ∧ fieldA w = 0 ∧ fieldRsv w = 0 := by
  rw [decode_eq_cmd_iff, Reads, and_comm, and_assoc]

theorem exists_decode_eq_rdreg_iff :
    (∃ r, decode w = .cmd (.rdreg r)) ↔ fieldOp w = 4 ∧ fieldRsv w = 0 ∧ (fieldA w).toNat ≤ 5 := by
  simp only [decode_eq_cmd_iff, Reads, exists_and_left, exists_code_iff, and_left_comm]

end

/-- Settles O6: each row's match under its mask says OP, RSV and, where the mask covers A, that A is 0. -/
theorem opcodeTableRowsSelectTheCommands : Obligations.OpcodeTableRowsSelectTheCommands := by
  intro w
  refine ⟨decode_eq_nop_iff.trans (and_maskWithA_eq_iff w 0).symm,
    exists_decode_eq_init_iff.trans (and_maskWithA_eq_iff w 1).symm, ?_,
    decode_eq_final_iff.trans (and_maskWithA_eq_iff w 3).symm, ?_⟩
  · rw [exists_decode_eq_ingest_iff, ← and_assoc]
    exact and_congr_left' (and_maskWithoutA_eq_iff w 2).symm
  · rw [exists_decode_eq_rdreg_iff, ← and_assoc]
    exact and_congr_left' (and_maskWithoutA_eq_iff w 4).symm

/-- A command is one of the five rows'. -/
theorem exists_instr_iff {P : Instr → Prop} : (∃ i, P i) ↔
    P .nop ∨ (∃ seed, P (.init seed)) ∨ (∃ beat, P (.ingest beat)) ∨ P .final ∨ ∃ r, P (.rdreg r) := by
  constructor
  · rintro ⟨i, h⟩
    cases i with
    | nop => exact .inl h
    | init seed => exact .inr (.inl ⟨seed, h⟩)
    | ingest beat => exact .inr (.inr (.inl ⟨beat, h⟩))
    | final => exact .inr (.inr (.inr (.inl h)))
    | rdreg r => exact .inr (.inr (.inr (.inr ⟨r, h⟩)))
  · rintro (h | ⟨_, h⟩ | ⟨_, h⟩ | h | ⟨_, h⟩) <;> exact ⟨_, h⟩

/-- Settles O3: for each OP both sides say RSV is 0 and A is one the row allows, and neither holds of a reserved OP. -/
theorem legalWordsAreTheDecodedOnes : Obligations.LegalWordsAreTheDecodedOnes := by
  intro w
  change _ ↔ (fieldOp w).toNat ≤ 4 ∧ fieldRsv w = 0 ∧ ((fieldOp w).toNat ∈ [0, 1, 3] → fieldA w = 0) ∧
    ((fieldOp w).toNat = 2 → (fieldA w).toNat ≤ 8) ∧ ((fieldOp w).toNat = 4 → (fieldA w).toNat ≤ 5)
  rw [exists_instr_iff, decode_eq_nop_iff, exists_decode_eq_init_iff, exists_decode_eq_ingest_iff, decode_eq_final_iff,
    exists_decode_eq_rdreg_iff]
  obtain h | h | h | h | h | h := op_cases (fieldOp w)
  · simp [h, and_comm]
  · simp [h, and_comm]
  · simp [h, and_comm]
  · simp [h, and_comm]
  · simp [h, and_comm]
  · refine iff_of_false ?_ fun ⟨hop, _⟩ => absurd hop (Nat.not_le_of_lt h)
    rintro (⟨hop, -⟩ | ⟨hop, -⟩ | ⟨hop, -⟩ | ⟨hop, -⟩ | ⟨hop, -⟩) <;> simp [hop] at h

/-! ### Ignored bits and the order of the checks -/

/-- A beat of LEN `n` is read from the payload's low `8 * n` bits alone. -/
theorem beatOf_congr {p q : Word} {n : Nat} (h : ∀ i, i < 8 * n → p.getLsbD i = q.getLsbD i) :
    beatOf p n = beatOf q n := by
  refine List.map_congr_left fun k hk => BitVec.eq_of_getLsbD_eq fun i hi => ?_
  have hbit : 8 * k + i < 8 * n := by
    rw [List.mem_range] at hk
    omega
  rw [BitVec.getLsbD_extractLsb', BitVec.getLsbD_extractLsb', h _ hbit]

/-- Settles O5: for each of these OPs the answer is told through OP, A, RSV and, for INGEST, the beat. -/
theorem ignoredBitsDoNotChangeTheCommand : Obligations.IgnoredBitsDoNotChangeTheCommand := by
  intro v w hlow
  obtain ⟨hop, ha, hrsv⟩ := low_bits_eq_iff.1 hlow
  refine ⟨?_, fun h hbeat => ?_⟩
  · rintro (h | h | h)
    · have hw : fieldOp w = 0 := fieldOp_eq_iff.2 h
      rw [decode_of_op_nop hw, decode_of_op_nop (hop.trans hw), ha, hrsv]
    · have hw : fieldOp w = 3 := fieldOp_eq_iff.2 h
      rw [decode_of_op_final hw, decode_of_op_final (hop.trans hw), ha, hrsv]
    · have hw : fieldOp w = 4 := fieldOp_eq_iff.2 h
      rw [decode_of_op_rdreg hw, decode_of_op_rdreg (hop.trans hw), ha, hrsv]
  · have hw : fieldOp w = 2 := fieldOp_eq_iff.2 h
    have hpay : beatOf (fieldPayload v) (fieldA w).toNat = beatOf (fieldPayload w) (fieldA w).toNat :=
      beatOf_congr fun i hi => by
        rw [fieldA_toNat] at hi
        rw [← getLsbD_eq_fieldPayload, ← getLsbD_eq_fieldPayload, hbeat _ (by omega)]
    rw [decode_of_op_ingest hw, decode_of_op_ingest (hop.trans hw), ha, hrsv, hpay]

/-- The beat, from the payload as a number. -/
theorem beatOf_eq_ofNat (p : Word) (n : Nat) :
    beatOf p n = (List.range n).map fun k => BitVec.ofNat 8 (p.toNat / 2 ^ (8 * k)) := by
  simp only [beatOf, BitVec.extractLsb', Nat.shiftRight_eq_div_pow]

/-- Settles O4: with the fields read as numbers, the chain comes down, for each OP, to the decoder's answer. -/
theorem decoderMakesTheChecksInOrder : Obligations.DecoderMakesTheChecksInOrder := by
  intro w
  refine ⟨?_, fun c s h => runWord_illegal h s⟩
  have hrsv : (fieldRsv w).toNat ≠ 0 ↔ fieldRsv w ≠ 0 := not_congr (BitVec.toNat_inj (y := 0))
  have ha : (fieldA w).toNat ≠ 0 ↔ fieldA w ≠ 0 := not_congr (BitVec.toNat_inj (y := 0))
  have hpay : BitVec.ofNat 64 (fieldPayload w).toNat = fieldPayload w := by simp
  simp only [← fieldOp_toNat, ← fieldA_toNat, ← fieldRsv_toNat, ← fieldPayload_toNat, ← beatOf_eq_ofNat, hpay, hrsv, ha]
  obtain h | h | h | h | h | h := op_cases (fieldOp w)
  · rw [decode_of_op_nop h]; simp [h]
  · rw [decode_of_op_init h]; simp [h]
  · rw [decode_of_op_ingest h]; simp [h]
  · rw [decode_of_op_final h]; simp [h]
  · rw [decode_of_op_rdreg h, ofCode_eq_ite]
    by_cases hsel : 5 < (fieldA w).toNat <;> simp [h, hsel]
  · rw [decode_of_op_reserved h, if_pos h]

/-! ### The assembler and the examples -/

/-- The payload an INGEST line writes, with the bytes at or above its length 0, is that of the beat. -/
theorem ofNat_mod_eq_leBits_beatOf (v : Word) (n : Nat) :
    BitVec.ofNat 64 (v.toNat % 2 ^ (8 * n)) = leBits 64 (beatOf v n) := by
  refine BitVec.eq_of_getLsbD_eq fun i hi => ?_
  rw [leBits_beatOf_getLsbD, BitVec.getLsbD_ofNat, Nat.testBit_mod_two_pow, decide_eq_true hi, Bool.true_and,
    BitVec.testBit_toNat]

theorem asmWord_ingest (len : Fin 9) (v : Word) : asmWord (.ingest len v) = encode (.ingest (beatOf v len.val)) := by
  rw [asmWord, encode, ofNat_mod_eq_leBits_beatOf, beatOf_length]

/-- Settles O8: only the INGEST line differs in form from its command's encoding; it decodes by the round trip. -/
theorem assemblerWritesTheCanonicalWord : Obligations.AssemblerWritesTheCanonicalWord := by
  intro v len r w
  have hdec : decode (encode (.ingest (beatOf v len.val))) = .cmd (.ingest (beatOf v len.val)) :=
    decodeOfEncodeIsTheCommand _ (by simpa [Config.beatBytes] using Nat.le_of_lt_succ len.isLt)
  refine ⟨rfl, rfl, asmWord_ingest len v, by rw [asmWord_ingest, hdec], fun n hn => ?_, rfl, rfl, rfl⟩
  obtain ⟨k, rfl⟩ := Nat.exists_eq_add_of_le (show 16 ≤ n by omega)
  rw [asmWord_ingest, encode_payload_of_decode_ingest hdec, beatOf_length, decide_eq_false (by omega), Bool.false_and]

/-- Settles O7, by evaluation of the ten examples. -/
theorem encodingExamplesOfTheSpec : Obligations.EncodingExamplesOfTheSpec := by
  unfold Obligations.EncodingExamplesOfTheSpec
  decide

end Sys2Proof.Machine
end

section
/-! SUPPORT. Streams: `absorb` told through the staged bytes followed by the beat, beats one after the other, and the
digest of a stream (42_ingest.md R131, R135; 43_finalize.md R161). -/

namespace Sys2Proof.Machine

/-! ### absorb over a stream -/

/-- The whole blocks of the staged bytes followed by the beat are mixed, in order. -/
theorem absorb_lanes (b : List Byte) (s : State) :
    (absorb b s).lanes = mixBlocks ((s.staged ++ b).length / 32) (s.staged ++ b) s.lanes := by
  have hlt := s.cnt.isLt
  by_cases hfull : 32 ≤ s.cnt.toNat + b.length
  · obtain ⟨hl, -, -⟩ := absorb_full hfull
    have hblock : (s.staged ++ b.take (32 - s.cnt.toNat)).length = 32 := by simp; omega
    have hsplit : s.staged ++ b = (s.staged ++ b.take (32 - s.cnt.toNat)) ++ b.drop (32 - s.cnt.toNat) := by simp
    have hcount : (s.staged ++ b).length / 32 = 1 + (b.drop (32 - s.cnt.toNat)).length / 32 := by
      rw [hsplit, List.length_append, hblock]
      omega
    rw [hl, hcount, hsplit, mixBlocks_add, mixBlocks_one, List.take_left' hblock, List.drop_left' hblock]
  · obtain ⟨hl, -, -⟩ := absorb_short (Nat.lt_of_not_le hfull)
    have hcount : (s.staged ++ b).length / 32 = 0 := by
      rw [List.length_append, staged_length]
      omega
    rw [hl, hcount, mixBlocks_zero]

/-- The staged bytes followed by the beat, as far as they fill no block, are staged. -/
theorem absorb_staged (b : List Byte) (s : State) : (absorb b s).staged = streamTail (s.staged ++ b) := by
  have hlt := s.cnt.isLt
  by_cases hfull : 32 ≤ s.cnt.toNat + b.length
  · obtain ⟨-, -, hs⟩ := absorb_full hfull
    have hskip : 32 * ((s.staged ++ b).length / 32) =
        s.staged.length + (32 - s.cnt.toNat + 32 * ((b.drop (32 - s.cnt.toNat)).length / 32)) := by
      simp only [List.length_append, List.length_drop, staged_length]
      omega
    rw [hs, streamTail, hskip, List.drop_length_add_append, List.drop_drop]
  · obtain ⟨-, -, hs⟩ := absorb_short (Nat.lt_of_not_le hfull)
    have hcount : (s.staged ++ b).length / 32 = 0 := by
      rw [List.length_append, staged_length]
      omega
    rw [hs, streamTail, hcount, Nat.mul_zero, List.drop_zero]

theorem streamTail_append (b c : List Byte) : streamTail (streamTail b ++ c) = streamTail (b ++ c) := by
  have hle : 32 * (b.length / 32) ≤ b.length := by omega
  have hskip : 32 * ((b ++ c).length / 32) =
      32 * (b.length / 32) + 32 * ((b.drop (32 * (b.length / 32)) ++ c).length / 32) := by
    simp only [List.length_append, List.length_drop]
    omega
  simp only [streamTail, hskip]
  rw [← List.drop_drop, List.drop_append_of_le_length hle]

/-- The whole blocks of `b`, and then those of what `b` leaves followed by `c`, are the whole blocks of `b ++ c`. -/
theorem mixBlocks_streamTail_append (b c : List Byte) (l : Lanes) :
    mixBlocks ((streamTail b ++ c).length / 32) (streamTail b ++ c) (mixBlocks (b.length / 32) b l) =
      mixBlocks ((b ++ c).length / 32) (b ++ c) l := by
  have hle : 32 * (b.length / 32) ≤ b.length := by omega
  have hcount : (b ++ c).length / 32 = b.length / 32 + (streamTail b ++ c).length / 32 := by
    simp only [streamTail, List.length_append, List.length_drop]
    omega
  rw [hcount, mixBlocks_add, mixBlocks_append _ _ _ _ hle, List.drop_append_of_le_length hle, ← streamTail]

@[simp] theorem absorb_nil (s : State) : absorb [] s = s := by
  have hlt : s.cnt.toNat < 32 := s.cnt.isLt
  simp [absorb, writeStg, hlt]

theorem SameUpToUnspecified.refl (s : State) : SameUpToUnspecified s s :=
  ⟨⟨rfl, rfl, rfl, rfl⟩, rfl, rfl, rfl, rfl, rfl⟩

theorem SameUpToUnspecified.trans {s t u : State} (h : SameUpToUnspecified s t) (k : SameUpToUnspecified t u) :
    SameUpToUnspecified s u :=
  ⟨⟨h.hash.lanes_eq.trans k.hash.lanes_eq, h.hash.cnt_eq.trans k.hash.cnt_eq, h.hash.tot_eq.trans k.hash.tot_eq,
    h.hash.staged_eq.trans k.hash.staged_eq⟩, h.err_eq.trans k.err_eq, h.ecause_eq.trans k.ecause_eq,
    h.rq_eq.trans k.rq_eq, h.inbox_eq.trans k.inbox_eq, h.rsp_eq.trans k.rsp_eq⟩

/-- Two beats one after the other, or their bytes at once: only the left-over staging bytes may differ. -/
theorem absorb_append (b c : List Byte) (s : State) :
    SameUpToUnspecified (absorb c (absorb b s)) (absorb (b ++ c) s) where
  hash :=
    { lanes_eq := by
        rw [absorb_lanes, absorb_staged, absorb_lanes, mixBlocks_streamTail_append, absorb_lanes, List.append_assoc]
      cnt_eq := BitVec.eq_of_toNat_eq (by
        simp only [absorb_cnt_toNat, List.length_append]
        omega)
      tot_eq := by
        simp only [absorb_tot, List.length_append, BitVec.ofNat_add, BitVec.add_assoc]
      staged_eq := by
        rw [absorb_staged, absorb_staged, streamTail_append, absorb_staged, List.append_assoc] }
  err_eq := by simp
  ecause_eq := by simp
  rq_eq := by simp
  inbox_eq := by simp
  rsp_eq := by simp

/-! ### Runs of commands -/

theorem execAll_append {is : List Instr} {s t : State} (h : execAll is s = .next t) (js : List Instr) :
    execAll (is ++ js) s = execAll js t := by
  induction is generalizing s with
  | nil =>
    cases h
    rfl
  | cons i is ih =>
    obtain ⟨u, hu, -⟩ := exec_cases i s
    simp only [execAll, hu] at h
    simp only [List.cons_append, execAll, hu, ih h]

/-- Beats one after the other are their bytes at once (42_ingest.md R135). -/
theorem execAll_map_ingest (beats : List (List Byte)) (s : State) : ∃ t,
    execAll (beats.map Instr.ingest) s = .next t ∧ SameUpToUnspecified t (absorb beats.flatten s) := by
  induction beats generalizing s with
  | nil => exact ⟨s, rfl, by simpa using .refl s⟩
  | cons b beats ih =>
    obtain ⟨t, ht, hsame⟩ := ih (absorb b s)
    exact ⟨t, by simpa [execAll] using ht, hsame.trans (absorb_append b _ s)⟩

/-- The digest after INIT and a stream is XXH64 of the stream. -/
theorem finalize_absorb_initState (seed : Word) (b : List Byte) (s : State) :
    finalize (absorb b (initState seed s)) = xxh64 seed b := by
  simp [finalize, xxh64, State.long, absorb_lanes, absorb_staged, streamLanes]

end Sys2Proof.Machine
end

section
/-! SUPPORT. The pseudo-instructions of 30_encoding.md R73. -/

namespace Sys2Proof.Machine

/-- The first `n` chunks of 8 bytes, one after the other, are the first `8 * n` bytes. -/
theorem flatten_chunks (b : List Byte) (n : Nat) :
    ((List.range n).map fun j => (b.drop (8 * j)).take 8).flatten = b.take (8 * n) := by
  induction n with
  | zero => simp
  | succ n ih => simp [List.range_succ, ih, Nat.mul_succ, List.take_add]

/-- `INGESTB b` is the INGESTs of beats that make up `b`. -/
theorem exists_beats_of_asmIngestb (b : List Byte) : ∃ beats : List (List Byte),
    asmIngestb b = beats.map Instr.ingest ∧ beats.flatten = b ∧ ∀ beat ∈ beats, beat.length ≤ Config.beatBytes := by
  refine ⟨(List.range ((b.length + 7) / 8)).map fun j => (b.drop (8 * j)).take 8, by simp [asmIngestb], ?_, ?_⟩
  · rw [flatten_chunks, List.take_of_length_le (by omega)]
  · simp only [List.mem_map]
    rintro _ ⟨j, -, rfl⟩
    exact List.length_take_le _ _

theorem wellFormed_of_mem_asmHash {seed : Word} {b : List Byte} {i : Instr} (hi : i ∈ asmHash seed b) :
    i.WellFormed := by
  obtain ⟨beats, hbeats, -, hlen⟩ := exists_beats_of_asmIngestb b
  simp only [asmHash, hbeats, List.mem_append, List.mem_cons, List.mem_map, List.not_mem_nil, or_false] at hi
  obtain (rfl | ⟨beat, hmem, rfl⟩) | rfl := hi
  · trivial
  · exact hlen beat hmem
  · trivial

theorem execAll_asmIngestb (b : List Byte) (s : State) : ∃ t,
    execAll (asmIngestb b) s = .next t ∧ SameUpToUnspecified t (absorb b s) := by
  obtain ⟨beats, hbeats, hflat, -⟩ := exists_beats_of_asmIngestb b
  rw [hbeats, ← hflat]
  exact execAll_map_ingest beats s

theorem execAll_asmHash (seed : Word) (b : List Byte) (s : State) : ∃ t,
    execAll (asmHash seed b) s = .next t ∧ t.rq = s.rq ++ [xxh64 seed b] := by
  obtain ⟨u, hu, hsame⟩ := execAll_asmIngestb b (initState seed s)
  have hinit : execAll (.init seed :: asmIngestb b) s = .next u := hu
  refine ⟨respond (finalize u) u, execAll_append hinit [.final], ?_⟩
  rw [respond_rq, hsame.hash.finalize_eq, finalize_absorb_initState, hsame.rq_eq, absorb_rq, initState_rq]

/-- Settles O53: `INGESTB b` is beats that make up `b`, and `HASH` puts INIT before and FINAL after them. -/
theorem pseudoInstructionsExpand : Obligations.PseudoInstructionsExpand := by
  refine ⟨fun seed b s => ⟨fun i hi => wellFormed_of_mem_asmHash hi, ?_⟩, fun v => ⟨rfl, LE64_beatOf_eight v⟩,
    by decide, by decide, by decide⟩
  obtain ⟨t, ht, hrq⟩ := execAll_asmHash seed b s
  obtain ⟨u, hu, hsame⟩ := execAll_asmIngestb b s
  exact ⟨t, u, absorb b s, ht, hrq, hu, rfl, hsame.hash⟩

end Sys2Proof.Machine
end

section
/-! SUPPORT. The arithmetic primitives (40_primitives.md): the rotation told through Lean's own, little-endian assembly
as the sum of its bytes, and the avalanche's steps by name. -/

namespace Sys2Proof.Machine

/-! ### Rotation -/

/-- For the amounts R105 allows, `rotl` is the library's rotation, whose amount counts modulo the width. -/
theorem rotl_eq_rotateLeft (x : Word) {r : Nat} (hr : r ≤ 63) : rotl x r = x.rotateLeft r := by
  rw [BitVec.rotateLeft_def, Nat.mod_eq_of_lt (Nat.lt_succ_of_le hr), rotl]

theorem rotl_toNat (x : Word) (r : Nat) :
    (rotl x r).toNat = (x.toNat * 2 ^ r % 2 ^ 64 ||| x.toNat / 2 ^ (64 - r)) := by
  rw [rotl, BitVec.toNat_or, BitVec.toNat_shiftLeft, BitVec.toNat_ushiftRight, Nat.shiftLeft_eq,
    Nat.shiftRight_eq_div_pow]

theorem rotl_getLsbD (x : Word) {r i : Nat} (hr : r ≤ 63) (hi : i < 64) :
    (rotl x r).getLsbD i = x.getLsbD ((i + (64 - r)) % 64) := by
  rw [rotl_eq_rotateLeft x hr, BitVec.getLsbD_rotateLeft, Nat.mod_eq_of_lt (Nat.lt_succ_of_le hr)]
  by_cases hwrap : i < r
  · have hplace : (i + (64 - r)) % 64 = 64 - r + i := by omega
    simp [hwrap, hplace]
  · have hplace : (i + (64 - r)) % 64 = i - r := by omega
    simp [hwrap, hplace, hi]

/-- Settles O9: the two parts of the rotation as numbers and bit by bit, and the three examples. -/
theorem rotateLeftMovesEveryBit : Obligations.RotateLeftMovesEveryBit :=
  ⟨fun x r _ hr => ⟨rotl_toNat x r, fun _ hi => rotl_getLsbD x hr hi⟩, by decide, by decide, by decide⟩

/-! ### Little-endian assembly -/

theorem leBits_toNat_lt (w : Nat) (b : List Byte) : (leBits w b).toNat < 2 ^ (8 * b.length) :=
  Nat.lt_pow_two_of_testBit _ fun n hn => by
    have hbyte : b.length ≤ n / 8 := by omega
    rw [BitVec.testBit_toNat, leBits_getLsbD, List.getD_eq_default _ _ hbyte]
    simp

/-- While the bytes fit the width, the first byte is the lowest digit and nothing is shifted out. -/
theorem leBits_cons_toNat {w : Nat} (x : Byte) {xs : List Byte} (hfit : 8 * (xs.length + 1) ≤ w) :
    (leBits w (x :: xs)).toNat = (leBits w xs).toNat * 2 ^ 8 + x.toNat := by
  have hx : x.toNat < 2 ^ w := x.isLt.trans_le (Nat.pow_le_pow_right (by decide) (by omega))
  have hxs : (leBits w xs).toNat * 2 ^ 8 < 2 ^ w := by
    calc (leBits w xs).toNat * 2 ^ 8
        < 2 ^ (8 * xs.length) * 2 ^ 8 := Nat.mul_lt_mul_of_pos_right (leBits_toNat_lt w xs) (by decide)
      _ = 2 ^ (8 * (xs.length + 1)) := by rw [← Nat.pow_add, Nat.mul_succ]
      _ ≤ 2 ^ w := Nat.pow_le_pow_right (by decide) hfit
  rw [leBits_cons, BitVec.toNat_or, BitVec.toNat_shiftLeft, BitVec.toNat_setWidth, Nat.mod_eq_of_lt hx,
    Nat.shiftLeft_eq, Nat.mod_eq_of_lt hxs, Nat.or_comm, ← Nat.shiftLeft_eq, Nat.shiftLeft_add_eq_or_of_lt x.isLt]

theorem leBits_toNat {w : Nat} {b : List Byte} (hfit : 8 * b.length ≤ w) :
    (leBits w b).toNat = ∑ k ∈ Finset.range b.length, (b.getD k 0).toNat * 2 ^ (8 * k) := by
  induction b with
  | nil => simp
  | cons x xs ih =>
    rw [List.length_cons] at hfit
    rw [leBits_cons_toNat x hfit, ih (by omega), List.length_cons, Finset.sum_range_succ', Finset.sum_mul]
    have hdigit (k : Nat) : (xs.getD k 0).toNat * 2 ^ (8 * k) * 2 ^ 8 = (xs.getD k 0).toNat * 2 ^ (8 * (k + 1)) := by
      rw [Nat.mul_assoc, ← Nat.pow_add, Nat.mul_succ]
    simp only [hdigit, List.getD_cons_succ, List.getD_cons_zero, Nat.mul_zero, Nat.pow_zero, Nat.mul_one]

/-- The `n` bytes of `b` from offset `o` on, as `LE64` and `LE32` take them. -/
theorem leBits_window_toNat {w n o : Nat} {b : List Byte} (hin : o + n ≤ b.length) (hfit : 8 * n ≤ w) :
    (leBits w ((b.drop o).take n)).toNat = ∑ k ∈ Finset.range n, (b.getD (o + k) 0).toNat * 2 ^ (8 * k) := by
  have hlen : ((b.drop o).take n).length = n := by
    rw [List.length_take, List.length_drop]
    omega
  rw [leBits_toNat (by omega), hlen]
  refine Finset.sum_congr rfl fun k hk => ?_
  simp [List.getD_eq_getElem?_getD, List.getElem?_take_of_lt (Finset.mem_range.mp hk)]

/-- Settles O10: both are the window of their bytes, which exactly fills the width. -/
theorem littleEndianAssembly : Obligations.LittleEndianAssembly :=
  ⟨fun _ _ hin => leBits_window_toNat hin (by decide), fun _ _ hin => leBits_window_toNat hin (by decide)⟩

/-! ### The operators -/

theorem avalanche_eq_of_steps {acc a b c d : Word} (ha : a = acc ^^^ (acc >>> 33)) (hb : b = a * P2)
    (hc : c = b ^^^ (b >>> 29)) (hd : d = c * P3) : avalanche acc = d ^^^ (d >>> 32) := by
  subst ha hb hc hd
  rfl

/-- Settles O11: the formulas are the definitions, and each corner case is evaluated (log 8). -/
theorem mixMergeRoundAndAvalanche : Obligations.MixMergeRoundAndAvalanche := by
  refine ⟨fun _ _ => rfl, fun _ _ => rfl, fun _ _ _ _ _ => avalanche_eq_of_steps, ?_⟩
  decide

end Sys2Proof.Machine
end

section
/-! SUPPORT. INIT (41_init.md R120, R121): its illegal words, the lanes of the seeds the rule names, and the state it
leaves. -/

namespace Sys2Proof.Machine

/-- With RSV 0, a nonzero A is what makes a NOP, INIT or FINAL illegal (30_encoding.md R65). -/
theorem decode_wordOf_nonzeroA (x : Word) {a op : BitVec 4} (hop : op = 0 ∨ op = 1 ∨ op = 3) (ha : a ≠ 0) :
    decode (wordOf x 0 a op) = .illegal .nonzeroA := by
  rcases hop with rfl | rfl | rfl <;> simpa [decode] using ha

/-- The lanes reset gives too (10_state.md R34). -/
theorem initLanes_zero : initLanes 0 =
    ⟨0x60EA27EEADC0B5D6, 0xC2B2AE3D27D4EB4F, 0x0000000000000000, 0x61C8864E7A143579⟩ := by
  decide

theorem initLanes_one : initLanes 1 =
    ⟨0x60EA27EEADC0B5D7, 0xC2B2AE3D27D4EB50, 0x0000000000000001, 0x61C8864E7A14357A⟩ := by
  decide

theorem initLanes_allOnes_lane0 : (initLanes 0xFFFFFFFFFFFFFFFF).lane0 = 0x60EA27EEADC0B5D5 := by
  decide

theorem initLanes_P1_lane3 : (initLanes P1).lane3 = 0 :=
  BitVec.sub_self P1

/-- LONG is `tot >= 32`, and INIT clears `tot` (10_state.md R27). -/
@[simp] theorem initState_long (seed : Word) (s : State) : (initState seed s).long = false := rfl

/-- Settles O14: the next state is `initState seed s`, whose lanes are `initLanes seed` and whose other fields are
0 or those of `s`. -/
theorem initLoadsTheSeedState : Obligations.InitLoadsTheSeedState := by
  intro seed s
  refine ⟨decode_encode_init seed, fun a ha => decode_wordOf_nonzeroA seed (by decide) ha,
    fun a rsv hrsv => decode_wordOf_reservedField seed hrsv a (by decide), initState seed s, exec_init s seed,
    rfl, rfl, rfl, rfl, initState_cnt .., initState_tot .., initState_long .., initState_stg .., initState_err ..,
    initState_ecause .., initState_rq .., initState_inbox .., initState_rsp .., ?seedZero, ?seedOne, ?seedAllOnes,
    ?seedP1⟩
  case seedZero => rintro rfl; exact initLanes_zero
  case seedOne => rintro rfl; exact initLanes_one
  case seedAllOnes => rintro rfl; exact initLanes_allOnes_lane0
  case seedP1 => rintro rfl; exact initLanes_P1_lane3

end Sys2Proof.Machine
end

section
/-! SUPPORT. INGEST (42_ingest.md): the steps of absorb, the words that carry a beat, and the hash state after INIT and
any beats. -/

namespace Sys2Proof.Machine

/-! ### One beat -/

/-- Settles O15: a beat that fills no block is only staged, and any other completes the staged one first. -/
theorem ingestFollowsTheFourSteps : Obligations.IngestFollowsTheFourSteps := by
  intro b s
  refine ⟨absorb b s, exec_ingest s b, absorb_tot b s, absorb_short, fun hfull => ⟨?_, absorb_full hfull⟩,
    absorb_err b s, absorb_ecause b s, absorb_rq b s, absorb_inbox b s, absorb_rsp b s⟩
  have hlt := s.cnt.isLt
  rw [List.length_append, staged_length, List.length_take]
  omega

/-- Settles O16: the lanes and the staged bytes told through the staged bytes followed by the beat. -/
theorem ingestConsumesWholeBlocks : Obligations.IngestConsumesWholeBlocks := fun b s =>
  ⟨absorb b s, exec_ingest s b, absorb_lanes b s, absorb_staged b s, absorb_cnt_toNat b s⟩

/-- Lane `i` reads its own word of the block and no other lane (42_ingest.md R132). -/
theorem blockMix_get (block : List Byte) (l : Lanes) (i : Fin 4) :
    (blockMix block l).get i = mix (l.get i) (LE64 block (8 * i.val)) := by
  match i with
  | 0 | 1 | 2 | 3 => rfl

/-- A beat that ends just at the block's boundary mixes the block and leaves nothing staged. -/
theorem absorb_of_block {b : List Byte} {s : State} (h : s.cnt.toNat + b.length = 32) :
    (absorb b s).lanes = blockMix (s.staged ++ b) s.lanes ∧ (absorb b s).cnt = 0 := by
  have hlen : (s.staged ++ b).length = 32 := by rw [List.length_append, staged_length, h]
  constructor
  · rw [absorb_lanes, hlen, Nat.div_self (by decide), mixBlocks_one, List.take_of_length_le hlen.le]
  · exact BitVec.eq_of_toNat_eq (by rw [absorb_cnt_toNat, h]; rfl)

/-- Settles O17: the word a lane is mixed with is the sum of its eight bytes. -/
theorem completedBlockMixesEachLane : Obligations.CompletedBlockMixesEachLane := by
  refine ⟨fun b s h => ?_, by decide⟩
  obtain ⟨hlanes, hcnt⟩ := absorb_of_block h
  refine ⟨absorb b s, exec_ingest s b, hcnt, fun i w hw => ?_⟩
  have hin : 8 * i.val + 8 ≤ (s.staged ++ b).length := by
    rw [List.length_append, staged_length, h]
    omega
  have hword : LE64 (s.staged ++ b) (8 * i.val) = w :=
    BitVec.eq_of_toNat_eq ((littleEndianAssembly.1 _ _ hin).trans hw.symm)
  rw [hlanes, blockMix_get, hword, mix]

/-- Settles O19: no byte is absorbed, whatever the payload. -/
theorem emptyBeatChangesNothing : Obligations.EmptyBeatChangesNothing := fun x s =>
  ⟨decode_wordOf_ingest x (by decide), by rw [exec_ingest, absorb_nil]⟩

/-- Settles O22: 31 bytes complete no block, and the 32nd does, alone or with the others. -/
theorem blockBoundaryLaw : Obligations.BlockBoundaryLaw := by
  intro b x s hcnt hb
  have hstaged : s.staged = [] := List.length_eq_zero_iff.1 (by rw [staged_length, hcnt]; rfl)
  obtain ⟨hlanes₁, hcnt₁, hstaged₁⟩ := absorb_short (b := b) (s := s) (by simp [hcnt, hb])
  obtain ⟨hlanes₂, hcnt₂⟩ := absorb_of_block (b := [x]) (s := absorb b s) (by simp [hcnt₁, hcnt, hb])
  obtain ⟨hlanes, hzero⟩ := absorb_of_block (b := b ++ [x]) (s := s) (by simp [hcnt, hb])
  rw [hstaged, List.nil_append] at hstaged₁ hlanes
  rw [hstaged₁, hlanes₁] at hlanes₂
  exact ⟨⟨_, _, exec_ingest s b, hlanes₁, exec_ingest _ [x], hlanes₂, hcnt₂⟩, _, exec_ingest s _, hlanes, hzero⟩

/-! ### The words of INGEST -/

/-- LEN 9 to 15 is no length of a beat (30_encoding.md R65). -/
theorem decode_wordOf_badLen (x : Word) {a : BitVec 4} (ha : 8 < a.toNat) :
    decode (wordOf x 0 a 2) = .illegal .badLen := by
  rw [decode_of_op_ingest (fieldOp_wordOf ..), fieldRsv_wordOf, fieldA_wordOf, if_neg (by simp), if_pos ha]

/-- STAGED of STATUS after a beat (10_state.md R28). -/
theorem absorb_status_staged (b : List Byte) (s : State) :
    (absorb b s).status.extractLsb' 0 5 = BitVec.ofNat 5 (s.cnt.toNat + b.length) := by
  obtain ⟨hstaged, -⟩ := statusFieldLayout.1 (absorb b s)
  exact hstaged.trans (BitVec.eq_of_toNat_eq (by rw [absorb_cnt_toNat, BitVec.toNat_ofNat]))

theorem absorb_tot_toNat (b : List Byte) (s : State) :
    (absorb b s).tot.toNat = (s.tot.toNat + b.length) % 2 ^ 64 := by
  rw [absorb_tot, BitVec.toNat_add, BitVec.toNat_ofNat, Nat.add_mod_mod]

/-- Settles O20: the decoder's branch for each LEN and RSV, and what a beat of LEN bytes leaves. -/
theorem ingestWordsAndTheirFrame : Obligations.IngestWordsAndTheirFrame := by
  intro x a s
  refine ⟨fun ha => ⟨absorb (beatOf x a.toNat) s, runWord_cmd (decode_wordOf_ingest x ha) s, exec_ingest s _, ?_, ?_,
    absorb_err .., absorb_ecause .., absorb_rq ..⟩, decode_wordOf_badLen x,
    fun rsv hrsv => decode_wordOf_reservedField x hrsv a (by decide)⟩
  · rw [absorb_status_staged, beatOf_length]
  · rw [State.long, absorb_tot_toNat, beatOf_length]

/-- Settles O21: at most 31 bytes are staged and a decoded beat has at most 8, too few to complete a second block. -/
theorem oneBeatMixesAtMostOneBlock : Obligations.OneBeatMixesAtMostOneBlock := by
  intro w beat s hdec
  have hbeat : beat.length ≤ 8 := wellFormed_of_decode hdec
  have hlt := s.cnt.isLt
  refine ⟨by omega, absorb beat s, exec_ingest s beat, ?_⟩
  obtain hshort | hfull := Nat.lt_or_ge (s.cnt.toNat + beat.length) 32
  · exact .inl ⟨hshort, (absorb_short hshort).1⟩
  · exact .inr ⟨hfull, absorb_lanes_of_full hbeat hfull⟩

/-! ### Beats one after the other -/

/-- Settles O18: beats one after the other count the bytes they have together. -/
theorem totalLengthCountsEveryByte : Obligations.TotalLengthCountsEveryByte := by
  intro beats s
  obtain ⟨t, ht, hsame⟩ := execAll_map_ingest beats s
  exact ⟨t, ht, by rw [hsame.hash.tot_eq, absorb_tot_toNat, List.length_flatten]⟩

/-- INIT and any beats leave the hash state of INIT and their bytes at once. -/
theorem execAll_init_map_ingest (seed : Word) (pieces : List (List Byte)) (s : State) : ∃ t,
    execAll (.init seed :: pieces.map Instr.ingest) s = .next t ∧
      SameHash t (absorb pieces.flatten (initState seed s)) := by
  obtain ⟨t, ht, hsame⟩ := execAll_map_ingest pieces (initState seed s)
  exact ⟨t, ht, hsame.hash⟩

/-- Settles O23: both are the bytes at once, and the digest is read of the hash state alone. -/
theorem chunkingInvariance : Obligations.ChunkingInvariance := by
  intro seed pieces s
  obtain ⟨t, ht, hsame⟩ := execAll_init_map_ingest seed pieces s
  exact ⟨t, _, ht, rfl, hsame, hsame.finalize_eq⟩

/-- Settles O24: INIT leaves nothing staged, so the blocks mixed after it are the stream's own. -/
theorem streamDeterminesTheHashState : Obligations.StreamDeterminesTheHashState := by
  intro seed pieces s
  obtain ⟨t, ht, hsame⟩ := execAll_init_map_ingest seed pieces s
  have htot : t.tot.toNat = pieces.flatten.length % 2 ^ 64 := by
    simp [hsame.tot_eq]
  refine ⟨t, ht, ?_, ?_, ?_, htot, fun hlt => by rw [htot, Nat.mod_eq_of_lt hlt]⟩
  · rw [hsame.lanes_eq, absorb_lanes, initState_staged, List.nil_append, initState_lanes]
  · rw [hsame.staged_eq, absorb_staged, initState_staged, List.nil_append, streamTail]
  · simp [hsame.cnt_eq, absorb_cnt_toNat]

end Sys2Proof.Machine
end

section
/-! SUPPORT. The tail fold of FINAL (43_finalize.md R155 to R158): the 8-byte steps one at a time from the start of the
tail, and the fold of a tail too short for one. -/

namespace Sys2Proof.Machine

/-! ### The 8-byte steps -/

theorem LE64_drop (t : List Byte) (m o : Nat) : LE64 (t.drop m) o = LE64 t (m + o) := by
  rw [LE64, LE64, List.drop_drop]

theorem LE32_drop (t : List Byte) (m o : Nat) : LE32 (t.drop m) o = LE32 t (m + o) := by
  rw [LE32, LE32, List.drop_drop]

@[simp] theorem tail8Steps_zero (t : List Byte) (acc : Word) : tail8Steps t 0 acc = acc := rfl

/-- The first of the 8-byte steps takes the first 8 bytes, and the others go on behind them. -/
theorem tail8Steps_succ (t : List Byte) (n : Nat) (acc : Word) :
    tail8Steps t (n + 1) acc = tail8Steps (t.drop 8) n (tail8 acc (LE64 t 0)) := by
  simp only [tail8Steps, List.range_succ_eq_map, List.foldl_cons, List.foldl_map, LE64_drop, Nat.mul_succ,
    Nat.mul_zero, Nat.add_comm 8]

/-! ### The byte steps -/

@[simp] theorem tail1Steps_nil (acc : Word) : tail1Steps [] acc = acc := rfl

@[simp] theorem tail1Steps_cons (x : Byte) (xs : List Byte) (acc : Word) :
    tail1Steps (x :: xs) acc = tail1Steps xs (tail1 acc x) := List.foldl_cons ..

/-! ### The fold by the length of the tail -/

section
variable {t : List Byte} (acc : Word)

/-- What follows the 8-byte steps is the same for the tail and for what is left of it after the first of them. -/
theorem tailFold_of_eight_le (h : 8 ≤ t.length) :
    tailFold t acc = tailFold (t.drop 8) (tail8 acc (LE64 t 0)) := by
  have hcount : t.length / 8 = (t.drop 8).length / 8 + 1 := by
    rw [List.length_drop]
    omega
  have hleft : t.length - (8 * ((t.drop 8).length / 8) + 8) = (t.drop 8).length - 8 * ((t.drop 8).length / 8) := by
    rw [List.length_drop]
    omega
  simp only [tailFold, hcount, hleft, tail8Steps_succ, LE32_drop, List.drop_drop, Nat.mul_succ, Nat.add_comm 8,
    Nat.add_assoc]

theorem tailFold_of_four_le (h : 4 ≤ t.length) (hlt : t.length < 8) :
    tailFold t acc = tail1Steps (t.drop 4) (tail4 acc (LE32 t 0)) := by
  simp [tailFold, Nat.div_eq_of_lt hlt, h]

theorem tailFold_of_lt_four (hlt : t.length < 4) : tailFold t acc = tail1Steps t acc := by
  have hcount : t.length / 8 = 0 := by omega
  simp [tailFold, hcount, hlt]

end

/-- Settles O28: a whole 8-byte step is the first of those counted, and a shorter tail is at most one 4-byte step and
then byte steps. -/
theorem tailFoldConsumesTheTail : Obligations.TailFoldConsumesTheTail := by
  intro t acc
  refine ⟨tailFold_of_eight_le acc, fun h hlt => ?_, fun h hlt => ?_, fun h => ?_⟩
  · rw [tailFold_of_four_le acc h hlt, tailFold_of_lt_four _ (by rw [List.length_drop]; omega)]
  · obtain ⟨x, xs, rfl⟩ := List.exists_cons_of_length_pos h
    rw [tailFold_of_lt_four acc hlt, tailFold_of_lt_four _ (by rw [List.length_drop]; omega), tail1Steps_cons,
      List.drop_one, List.tail_cons, List.getD_cons_zero]
  · obtain rfl := List.length_eq_zero_iff.1 h
    rw [tailFold_of_lt_four acc (by decide), tail1Steps_nil]

/-- Settles O29: the formulas are the definitions, and each worked example is evaluated. -/
theorem tailStepFormulas : Obligations.TailStepFormulas := by
  refine ⟨fun _ _ => rfl, fun _ _ => rfl, fun _ _ => rfl, ?_⟩
  decide

end Sys2Proof.Machine
end

section
/-! SUPPORT. FINAL (43_finalize.md): its words, the digest path by path, and what words and commands after INIT leave of
the hash state for it to read. -/

namespace Sys2Proof.Machine

/-! ### The words of FINAL -/

theorem decode_wordOf_final (x : Word) : decode (wordOf x 0 0 3) = .cmd .final :=
  decode_eq_final_iff.2 ⟨fieldOp_wordOf .., fieldA_wordOf .., fieldRsv_wordOf ..⟩

/-- An illegal word has no response (60_exceptions.md R202). -/
theorem runWord_illegal_rq {w : CmdWord} {c : IllegalCause} (h : decode w = .illegal c) (s : State) :
    ∃ t, runWord w s = .next t ∧ t.rq = s.rq :=
  ⟨_, runWord_illegal h s, raiseIllegal_rq c s⟩

/-- Settles O27: any payload decodes to FINAL, and each illegal form is recorded without a response. -/
theorem finalWordsAndTheirIllegalForms : Obligations.FinalWordsAndTheirIllegalForms := by
  intro x s
  refine ⟨decode_wordOf_final x, fun a ha => ?_, fun a rsv hrsv => ?_⟩
  · have hdec := decode_wordOf_nonzeroA x (op := 3) (by decide) ha
    exact ⟨hdec, runWord_illegal_rq hdec s⟩
  · have hdec := decode_wordOf_reservedField x hrsv a (op := 3) (by decide)
    exact ⟨hdec, runWord_illegal_rq hdec s⟩

/-! ### The digest, path by path -/

section
variable {s : State}

theorem finalize_of_long (h : 32 ≤ s.tot.toNat) :
    finalize s = avalanche (tailFold s.staged (longSeed s.lanes + s.tot)) := by
  have hlong : s.long = true := decide_eq_true h
  rw [finalize, if_pos hlong]

theorem finalize_of_short (h : s.tot.toNat < 32) :
    finalize s = avalanche (tailFold s.staged (shortSeed s.lanes + s.tot)) := by
  have hshort : s.long = false := decide_eq_false (Nat.not_le_of_lt h)
  rw [finalize, hshort, if_neg Bool.false_ne_true]

end

/-- Settles O26: FINAL responds the digest of the path LONG selects, and the seed value of each path is the rule's. -/
theorem finalRespondsTheDigest : Obligations.FinalRespondsTheDigest := by
  intro s
  refine ⟨fun h => ?_, fun h => ?_⟩
  · rw [exec_final, finalize_of_long h]
    rfl
  · rw [exec_final, finalize_of_short h]
    rfl

/-! ### FINAL leaves the hash state -/

theorem SameHash.trans {s t u : State} (h : SameHash s t) (k : SameHash t u) : SameHash s u :=
  ⟨h.lanes_eq.trans k.lanes_eq, h.cnt_eq.trans k.cnt_eq, h.tot_eq.trans k.tot_eq, h.staged_eq.trans k.staged_eq⟩

theorem sameHash_respond (v : Word) (s : State) : SameHash (respond v s) s := ⟨rfl, rfl, rfl, rfl⟩

theorem sameHash_raiseIllegal (c : IllegalCause) (s : State) : SameHash (raiseIllegal c s) s := ⟨rfl, rfl, rfl, rfl⟩

@[simp] theorem finalize_respond (v : Word) (s : State) : finalize (respond v s) = finalize s :=
  (sameHash_respond v s).finalize_eq

/-- Settles O31: with false FINAL only responds, so the hash state it leaves has the same digest and goes on as before;
with true that state is then INIT 0's. -/
theorem finalForBothValuesOfReinit : Obligations.FinalForBothValuesOfReinit := by
  intro s
  refine ⟨by rw [finalWith_true, initState_rq, respond_rq], by rw [finalWith_false, respond_rq], rfl, rfl, rfl, ?_,
    fun b => ?_⟩
  · exact ⟨respond (finalize (respond (finalize s) s)) (respond (finalize s) s), rfl, by simp⟩
  · have hsame := (sameHash_respond (finalize s) s).absorb b
    exact ⟨_, _, rfl, rfl, hsame, hsame.finalize_eq⟩

/-! ### The digest of a stream -/

/-- A word that is no INIT does to the hash state what its beat does: words without a beat leave it. -/
theorem SameHash.runWord {s t u : State} {w : CmdWord} (h : SameHash s t) (hw : isInit w = false)
    (hrun : runWord w s = .next u) : SameHash u (Machine.absorb (beatOfWord w) t) := by
  obtain ⟨i, hdec, hexec⟩ | ⟨c, hdec, rfl⟩ := runWord_next hrun
  · obtain ⟨rfl, rfl⟩ | ⟨seed, rfl, rfl⟩ | ⟨b, rfl, rfl⟩ | ⟨rfl, rfl⟩ | ⟨r, rfl, rfl⟩ := exec_next hexec
    · simpa [beatOfWord, hdec] using h
    · simp [isInit, hdec] at hw
    · simpa [beatOfWord, hdec] using h.absorb b
    · simpa [beatOfWord, hdec] using (sameHash_respond _ s).trans h
    · simpa [beatOfWord, hdec] using (sameHash_respond _ s).trans h
  · simpa [beatOfWord, hdec] using (sameHash_raiseIllegal c s).trans h

/-- Words without an INIT absorb just the bytes of their beats. -/
theorem runWords_sameHash_absorb {ws : List CmdWord} (hws : ∀ w ∈ ws, isInit w = false) (s : State) :
    ∃ t, runWords ws s = .next t ∧ SameHash t (absorb (ws.flatMap beatOfWord) s) := by
  refine runWords_invariant (P := fun before t => SameHash t (absorb (before.flatMap beatOfWord) s))
    (by rw [List.flatMap_nil, absorb_nil]; exact ⟨rfl, rfl, rfl, rfl⟩) fun before w hw t u h hrun => ?_
  rw [List.flatMap_append, List.flatMap_singleton]
  exact (h.runWord (hws w hw) hrun).trans (absorb_append _ _ s).hash

theorem runWords_append {vs : List CmdWord} {s t : State} (h : runWords vs s = .next t) (ws : List CmdWord) :
    runWords (vs ++ ws) s = runWords ws t := by
  induction vs generalizing s with
  | nil =>
    cases h
    rfl
  | cons v vs ih =>
    obtain ⟨u, hu, -⟩ := runWord_cases v s
    simp only [runWords, hu] at h
    simp only [List.cons_append, runWords, hu, ih h]

/-- Settles O52: the words after INIT leave the hash state of their bytes absorbed at once, whose digest is XXH64 of
them, and FINAL responds it last. -/
theorem digestIsAFunctionOfSeedAndStream : Obligations.DigestIsAFunctionOfSeedAndStream := by
  intro seed ws s hws
  obtain ⟨t, hrun, hsame⟩ := runWords_sameHash_absorb hws (initState seed s)
  have hinit : runWord (encode (.init seed)) s = .next (initState seed s) := runWord_cmd (decode_encode_init seed) s
  have hfinal : runWord (encode .final) t = .next (respond (finalize t) t) :=
    runWord_cmd (decodeOfEncodeIsTheCommand .final trivial) t
  have hwords : runWords (encode (.init seed) :: ws) s = .next t := by simp only [runWords, hinit, hrun]
  refine ⟨respond (finalize t) t, by rw [runWords_append hwords]; simp only [runWords, hfinal], ?_⟩
  rw [respond_rq, List.getLast?_concat, hsame.finalize_eq, finalize_absorb_initState]

/-! ### The empty input -/

theorem xxh64_zero_nil : xxh64 0 [] = 0xEF46DB3751D8E999 := by decide

theorem finalize_initState_zero (s : State) : finalize (initState 0 s) = 0xEF46DB3751D8E999 := by
  rw [← absorb_nil (initState 0 s), finalize_absorb_initState, xxh64_zero_nil]

/-- Reset leaves the hash state of INIT 0 (10_state.md R34). -/
theorem sameHash_reset : SameHash State.reset (initState 0 State.reset) := ⟨reset_lanes, rfl, rfl, rfl⟩

/-- Settles O30: INIT 0 and reset leave one hash state, whose digest is XXH64 of seed 0 and no bytes. -/
theorem emptyInputDigest : Obligations.EmptyInputDigest := by
  refine ⟨fun s => ⟨respond (finalize (initState 0 s)) (initState 0 s), rfl, ?_⟩, _, exec_final State.reset, ?_⟩
  · rw [respond_rq, finalize_initState_zero, initState_rq]
  · rw [respond_rq, sameHash_reset.finalize_eq, finalize_initState_zero]
    rfl

end Sys2Proof.Machine
end

section
/-! SUPPORT. NOP (44_control.md): its words. -/

namespace Sys2Proof.Machine

/-- NOP ignores its payload (44_control.md R180). -/
theorem decode_wordOf_nop (x : Word) : decode (wordOf x 0 0 0) = .cmd .nop :=
  decode_eq_nop_iff.2 ⟨fieldOp_wordOf .., fieldA_wordOf .., fieldRsv_wordOf ..⟩

/-- Settles O13: a zero A and RSV make the word NOP; otherwise the decoder's check of RSV, then of A, answers. -/
theorem nopChangesNothing : Obligations.NopChangesNothing := fun x s =>
  ⟨decode_wordOf_nop x, exec_nop s, fun _ ha => decode_wordOf_nonzeroA x (by decide) ha,
    fun a _ hrsv => decode_wordOf_reservedField x hrsv a (by decide)⟩

end Sys2Proof.Machine
end

section
/-! SUPPORT. IllegalCommand (60_exceptions.md): the causes and what records them, that ERR and ECAUSE stay until reset,
and that nothing faults. -/

namespace Sys2Proof.Machine

/-! ### The causes -/

/-- Settles O34: the offered word is accepted, and an illegal one is `raise IllegalCommand` of its cause. -/
theorem illegalCommandIsRecorded : Obligations.IllegalCommandIsRecorded := by
  intro s w later c hroom hin hdec
  have hraise : step s = .next (raiseIllegal c { s with inbox := later }) :=
    (stepAt_of_send hroom hin).trans (runWord_illegal hdec _)
  rw [hraise]
  cases c <;> rfl

/-- Settles O35: the first check of the decoder's chain that matches gives the cause, and the checks before it failed. -/
theorem causeCodesMeanTheirConditions : Obligations.CauseCodesMeanTheirConditions := by
  intro w c h
  obtain ⟨hchain, -⟩ := decoderMakesTheChecksInOrder w
  rw [h] at hchain
  -- the branches that answer a command cannot be an illegal verdict; the five checks are left
  split_ifs at hchain with hop hrsv ha hlen hsel <;> cases hchain
  · exact .inl ⟨rfl, hop⟩
  · exact .inr (.inl ⟨rfl, Nat.le_of_lt_succ (Nat.lt_of_not_le hop), hrsv⟩)
  · exact .inr (.inr (.inl ⟨rfl, ha.1, ha.2, not_not.1 hrsv⟩))
  · exact .inr (.inr (.inr (.inl ⟨rfl, hlen.1, hlen.2, not_not.1 hrsv⟩)))
  · exact .inr (.inr (.inr (.inr ⟨rfl, hsel.1, hsel.2, not_not.1 hrsv⟩)))

/-! ### Until reset -/

/-- A word plays no part in what the host has still to do. -/
theorem runWord_inbox {w : CmdWord} {s t : State} (h : runWord w s = .next t) : t.inbox = s.inbox := by
  obtain ⟨i, -, hexec⟩ | ⟨c, -, rfl⟩ := runWord_next h
  · obtain ⟨-, rfl⟩ | ⟨seed, -, rfl⟩ | ⟨b, -, rfl⟩ | ⟨-, rfl⟩ | ⟨r, -, rfl⟩ := exec_next hexec <;> simp
  · exact raiseIllegal_inbox c s

/-- A step adds no host event. -/
theorem stepAt_inbox_sublist {depth : Nat} {s t : State} (h : stepAt depth s = .next t) :
    t.inbox.Sublist s.inbox := by
  obtain ⟨-, -, hs⟩ | ⟨w, rest, -, hin, hs⟩ | ⟨ws, later, hin, hs⟩ | ⟨ws, later, hin, hs⟩ := stepAt_cases depth s
  · cases hs.symm.trans h
    exact .refl _
  · rw [runWord_inbox (hs.symm.trans h), hin]
    exact List.sublist_cons_self _ _
  · cases hs.symm.trans h
    simp [hin]
  · cases hs.symm.trans h
    simp [hin]

/-- Once ERR is set, a word changes neither ERR nor ECAUSE: the first cause wins (60_exceptions.md R202). -/
theorem runWord_error_of_err {w : CmdWord} {s t : State} (herr : s.err = true) (h : runWord w s = .next t) :
    t.err = true ∧ t.ecause = s.ecause := by
  obtain ⟨i, -, hexec⟩ | ⟨c, -, rfl⟩ := runWord_next h
  · rw [← herr]
    exact exec_error hexec
  · simp [herr]

/-- Once ERR is set, only a reset step changes ERR or ECAUSE (60_exceptions.md R206). -/
theorem stepAt_error_of_err {depth : Nat} {s t : State} (hrst : HostEvent.rst ∉ s.inbox) (herr : s.err = true)
    (h : stepAt depth s = .next t) : t.err = true ∧ t.ecause = s.ecause := by
  obtain rfl | ⟨w, rest, -, -, hrun⟩ | ⟨rest, rfl⟩ | ⟨hmem, -⟩ := stepAt_next h
  · exact ⟨herr, rfl⟩
  · exact runWord_error_of_err (s := { s with inbox := rest }) herr hrun
  · simpa using herr
  · exact absurd hmem hrst

/-- No reset is to come, and ERR is set with `cause` recorded. -/
structure ErrUntilReset (cause : BitVec 3) (s : State) : Prop where
  no_rst : HostEvent.rst ∉ s.inbox
  err_eq : s.err = true
  ecause_eq : s.ecause = cause

theorem ErrUntilReset.stepAt {cause : BitVec 3} {depth : Nat} {s t : State} (h : ErrUntilReset cause s)
    (hstep : stepAt depth s = .next t) : ErrUntilReset cause t := by
  obtain ⟨herr, hecause⟩ := stepAt_error_of_err h.no_rst h.err_eq hstep
  exact ⟨fun hmem => h.no_rst ((stepAt_inbox_sublist hstep).mem hmem), herr, hecause.trans h.ecause_eq⟩

/-- Settles O37: every step keeps the recorded error while no reset is to come. -/
theorem errStaysUntilReset : Obligations.ErrStaysUntilReset := by
  intro n s t hrst herr hrun
  obtain ⟨u, hu, hkept⟩ := run_invariant (P := ErrUntilReset s.ecause) (fun _ _ h hstep => h.stepAt hstep) n
    ⟨hrst, herr, rfl⟩
  cases hu.symm.trans hrun
  exact ⟨hkept.err_eq, hkept.ecause_eq⟩

/-! ### Nothing faults -/

/-- Settles O38: a command is one shared operation, and none of them touches the error state. -/
theorem legalCommandsRaiseNothing : Obligations.LegalCommandsRaiseNothing := by
  intro i s
  obtain ⟨t, hexec, -⟩ := exec_cases i s
  exact ⟨t, hexec, exec_error hexec⟩

/-- Settles O39: each event that can come next answers a next state, and so does having none. -/
theorem everyStepAnswersNext : Obligations.EveryStepAnswersNext := exists_stepAt_next

end Sys2Proof.Machine
end

section
/-! SUPPORT. A design of several instances (60_exceptions.md R209; log 12). -/

namespace Sys2Proof.Machine

/-- A design's step is the step of one instance, put back in its place. -/
theorem Design.stepAt_of_step {n : Nat} {d : Design n} {k : Fin n} {t : State} (h : step d.insts[k] = .next t) :
    d.stepAt k = .next { insts := d.insts.set k t } := by
  simp only [Design.stepAt, h]

/-- Settles O55: an instance's step reads and writes its own place alone, and writes to two places commute. -/
theorem instancesShareNoState : Obligations.InstancesShareNoState := by
  intro n d j k hjk
  have hne : j.val ≠ k.val := Fin.val_ne_of_ne hjk
  obtain ⟨s, hs⟩ : ∃ s, step d.insts[j] = .next s := exists_stepAt_next _ d.insts[j]
  obtain ⟨t, ht⟩ : ∃ t, step d.insts[k] = .next t := exists_stepAt_next _ d.insts[k]
  have hj_after_k : (d.insts.set k t)[j] = d.insts[j] := Vector.getElem_set_ne _ _ hne.symm
  have hk_after_j : (d.insts.set j s)[k] = d.insts[k] := Vector.getElem_set_ne _ _ hne
  refine ⟨⟨_, Design.stepAt_of_step ht, hj_after_k, ?_⟩,
    _, _, _, Design.stepAt_of_step hs, Design.stepAt_of_step (t := t) ?_, Design.stepAt_of_step ht, ?_⟩
  · simpa using ht
  · exact (congrArg step hk_after_j).trans ht
  · rw [Vector.set_comm _ _ hne]
    exact Design.stepAt_of_step ((congrArg step hj_after_k).trans hs)

end Sys2Proof.Machine
end

section
/-! SUPPORT. The reset step (70_reset_and_hazards.md R230), and the step while the response queue is full (R236). -/

namespace Sys2Proof.Machine

/-! ### Reset -/

/-- The oldest event is the host's reset: it happens whether or not the queue has room. -/
theorem stepAt_of_rst {depth : Nat} {s : State} {later : List HostEvent} (hin : s.inbox = .rst :: later) :
    stepAt depth s = .next (resetCore { s with inbox := later }) := by
  simp [stepAt, hin]

/-- Settles O42: the next state is `resetCore` of what the host has left to do, whose fields are those of R34. -/
theorem resetStepClearsTheCore : Obligations.ResetStepClearsTheCore := by
  intro depth s later hin
  exact ⟨_, stepAt_of_rst hin, resetCore_lanes _, resetCore_cnt _, resetCore_tot _, resetCore_err _, resetCore_ecause _,
    resetCore_rq _, resetCore_inbox _, resetCore_rsp _⟩

/-! ### The full queue -/

/-- While the core is not ready the command words are passed over, and they stay ahead of what remains. -/
theorem nextEvent_false_sends (ws : List CmdWord) (events : List HostEvent) :
    nextEvent false (ws.map HostEvent.send ++ events) =
      (nextEvent false events).map fun p => (p.1, ws.map HostEvent.send ++ p.2) := by
  induction ws with
  | nil => simp
  | cons w ws ih => simp [nextEvent, ih, Function.comp_def]

section
variable {depth : Nat} {s : State} (hfull : depth ≤ s.rq.length)
include hfull

theorem cmdReady_of_full : s.cmdReady depth = false := by simpa [State.cmdReady] using hfull

/-- The host's taking a response goes ahead of the words that wait. -/
theorem stepAt_of_full_take {ws : List CmdWord} {later : List HostEvent}
    (hin : s.inbox = ws.map HostEvent.send ++ .take :: later) :
    stepAt depth s = .next (takeResponse { s with inbox := ws.map HostEvent.send ++ later }) := by
  simp [stepAt, cmdReady_of_full hfull, hin, nextEvent_false_sends]

/-- With command words alone the core is stuck (log 2). -/
theorem stepAt_of_full_sends {ws : List CmdWord} (hin : s.inbox = ws.map HostEvent.send) :
    stepAt depth s = .next s := by
  have hnone : nextEvent false s.inbox = none := by simpa [hin] using nextEvent_false_sends ws []
  simp [stepAt, cmdReady_of_full hfull, hnone]

end

/-- Settles O44: of what a step can do, a full queue leaves idling, the host's taking a response and reset; none of
them removes a word, and the first two leave the core. -/
theorem fullQueueAcceptsNoCommand : Obligations.FullQueueAcceptsNoCommand := by
  intro depth s hfull
  refine ⟨?_, fun ws later v q hin hrq => ?_, fun ws hin => stepAt_of_full_sends hfull hin⟩
  · obtain ⟨-, -, hs⟩ | ⟨w, rest, hroom, -, -⟩ | ⟨ws, later, hin, hs⟩ | ⟨ws, later, hin, hs⟩ := stepAt_cases depth s
    · exact ⟨s, hs, rfl, fun _ => ⟨rfl, rfl, rfl, rfl, rfl, rfl, rfl⟩⟩
    · exact absurd hfull (Nat.not_le_of_lt hroom)
    · exact ⟨_, hs, by simp [hin], fun _ => ⟨takeResponse_lanes _, takeResponse_stg _, takeResponse_cnt _,
        takeResponse_tot _, takeResponse_err _, takeResponse_ecause _, takeResponse_rsp_append_rq _⟩⟩
    · exact ⟨_, hs, by simp [hin], fun hrst => absurd (by simp [hin]) hrst⟩
  · exact (stepAt_of_full_take hfull hin).trans (congrArg _ (takeResponse_cons _ hrq))

end Sys2Proof.Machine
end

section
/-! SUPPORT. A list of commands through the channels (70_reset_and_hazards.md R232): while none of them responds, the
steps that accept their words are `execAll` of the list. -/

namespace Sys2Proof.Machine

/-- The command leaves the response queue as it is. -/
def Silent (i : Instr) : Prop := ∀ s t, exec i s = .next t → t.rq = s.rq

theorem silent_init (seed : Word) : Silent (.init seed) := by
  rintro s _ ⟨⟩
  exact initState_rq seed s

theorem silent_ingest (beat : List Byte) : Silent (.ingest beat) := by
  rintro s _ ⟨⟩
  exact absorb_rq beat s

/-- What the host still has to do plays no part in a command, and stays. -/
theorem exec_with_inbox {i : Instr} {s t : State} (h : exec i s = .next t) (events : List HostEvent) :
    exec i { s with inbox := events } = .next { t with inbox := events } := by
  obtain ⟨rfl, rfl⟩ | ⟨seed, rfl, rfl⟩ | ⟨b, rfl, rfl⟩ | ⟨rfl, rfl⟩ | ⟨r, rfl, rfl⟩ := exec_next h
  · rfl
  · rfl
  · rw [exec_ingest, absorb_with_inbox]
  · rw [exec_final, finalize_with_inbox]; rfl
  · rw [exec_rdreg, readReg_with_inbox]; rfl

/-- The oldest event offers a command's word and the queue has room: the step is the command. -/
theorem step_of_send_encode {s : State} {i : Instr} {later : List HostEvent} (hwf : i.WellFormed)
    (hroom : s.rq.length < Config.rspDepth) (hin : s.inbox = .send (encode i) :: later) :
    step s = exec i { s with inbox := later } :=
  (stepAt_of_send hroom hin).trans (runWord_cmd (decodeOfEncodeIsTheCommand i hwf) _)

theorem run_succ_of_step {s t : State} (h : step s = .next t) (n : Nat) :
    Host.Core.run core (n + 1) s = Host.Core.run core n t := by
  have hcore : core.step s = .next t := h
  simp only [Host.Core.run, hcore]

/-- The core accepts the words of silent commands one after the other, a step for each. -/
theorem run_sends_of_execAll {is : List Instr} {s t : State} {later : List HostEvent} (n : Nat)
    (hwf : ∀ i ∈ is, i.WellFormed) (hsilent : ∀ i ∈ is, Silent i) (hroom : s.rq.length < Config.rspDepth)
    (hin : s.inbox = is.map (fun i => HostEvent.send (encode i)) ++ later)
    (hexec : execAll is { s with inbox := later } = .next t) :
    Host.Core.run core (is.length + n) s = Host.Core.run core n t := by
  induction is generalizing s with
  | nil =>
    have hlater : s.inbox = later := hin
    subst hlater
    cases hexec
    rw [List.length_nil, Nat.zero_add]
  | cons i is ih =>
    obtain ⟨hi, his⟩ := List.forall_mem_cons.1 hwf
    obtain ⟨hquiet, hquiets⟩ := List.forall_mem_cons.1 hsilent
    obtain ⟨u, hu, -⟩ := exec_cases i { s with inbox := is.map (fun i => HostEvent.send (encode i)) ++ later }
    obtain ⟨⟨-, -, hinbox, -⟩, -⟩ := commandsWriteOnlyTheirState _ _ _ hu
    have hstep : step s = .next u := (step_of_send_encode hi hroom hin).trans hu
    have hrest : execAll is { u with inbox := later } = .next t := by
      simpa only [execAll, exec_with_inbox hu later] using hexec
    rw [List.length_cons, Nat.add_right_comm, run_succ_of_step hstep]
    exact ih his hquiets (hquiet _ _ hu ▸ hroom) hinbox hrest

/-- FINAL is accepted with the queue empty, and the host takes its response in the next step. -/
theorem run_final_take {s : State} {later : List HostEvent} (hrq : s.rq = [])
    (hin : s.inbox = .send (encode .final) :: .take :: later) :
    Host.Core.run core 2 s = .next { s with inbox := later, rq := [], rsp := s.rsp ++ [finalize s] } := by
  have hfinal : step s = .next (respond (finalize s) { s with inbox := .take :: later }) :=
    step_of_send_encode trivial (by rw [hrq]; decide) hin
  have hone : (respond (finalize s) { s with inbox := .take :: later }).rq = [finalize s] := by simp [hrq]
  obtain ⟨htake, -⟩ := hostTakesTheHeadResponse Config.rspDepth
    (respond (finalize s) { s with inbox := .take :: later }) later (respond_inbox ..)
  rw [run_succ_of_step hfinal, run_succ_of_step (htake _ _ hone)]
  rfl

/-- Settles O54: INIT and the beats leave the hash state of the stream and no response, so FINAL is accepted and the
host takes the digest. -/
theorem hashThroughTheChannels : Obligations.HashThroughTheChannels := by
  intro seed b s later hrq hin
  obtain ⟨u, hu, hsame⟩ :=
    execAll_asmIngestb b (initState seed { s with inbox := .send (encode .final) :: .take :: later })
  have hwf : ∀ i ∈ Instr.init seed :: asmIngestb b, i.WellFormed := fun i hi =>
    wellFormed_of_mem_asmHash (List.mem_append_left _ hi)
  have hsilent : ∀ i ∈ Instr.init seed :: asmIngestb b, Silent i := by
    obtain ⟨beats, hbeats, -⟩ := exists_beats_of_asmIngestb b
    simpa [hbeats] using ⟨silent_init seed, fun beat _ => silent_ingest beat⟩
  have hbeats : Host.Core.run core ((asmHash seed b).length + 1) s = Host.Core.run core 2 u := by
    rw [asmHash, List.length_append]
    exact run_sends_of_execAll 2 hwf hsilent (by rw [hrq]; decide) (by simpa [asmHash] using hin) hu
  have hdigest : finalize u = xxh64 seed b := by rw [hsame.hash.finalize_eq, finalize_absorb_initState]
  have hempty : u.rq = [] := by rw [hsame.rq_eq, absorb_rq, initState_rq, hrq]
  have hevents : u.inbox = .send (encode .final) :: .take :: later := by
    rw [hsame.inbox_eq, absorb_inbox, initState_inbox]
  refine ⟨_, hbeats.trans (run_final_take hempty hevents), ?_, rfl, rfl, ?_, ?_⟩
  · simp [hdigest, hsame.rsp_eq]
  · simp [hsame.err_eq]
  · simp [hsame.ecause_eq]

end Sys2Proof.Machine
end
